-- ==== Sys2Proof/Word.lean ====
section
/-!
DEFINITION. The plain types of the machine: bytes, the 24-bit instruction word and its three bytes
(00_scope.md R7) and the 12-bit decoded address (30_encoding.md R85). A data cell or a stack entry holds a
signed integer, `Int` (10_state.md R24, R33). DESIGN CHOICE, safe: that is the unbounded type which R25
admits, and no reachable state tells it from a two's-complement width of 15 bits or more (log 1).
-/

namespace Sys2Proof

/-- One byte of the loaded binary. -/
abbrev Byte := BitVec 8

/-- One instruction as a 24-bit little-endian word, `w = b0 + 256*b1 + 65536*b2` (R7). -/
abbrev InstrWord := BitVec 24

/-- A decoded data address: all twelve bits `w[15:4]` (R85). -/
abbrev Address := BitVec 12

/-- The three bytes of one instruction in the order they stand in the binary (R7, R54): `b0` is the
byte at the lowest offset. -/
structure InstrBytes where
  b0 : Byte
  b1 : Byte
  b2 : Byte
deriving DecidableEq, Repr

end Sys2Proof
end

