-- ==== Sys2Proof/Syntax.lean ====
section
/-!
DEFINITION. The instruction records (40_codec.md R109): four mnemonics, one operand each. The type is
exhaustive, as 30_encoding.md R93 advises, so an unknown opcode is no instruction at all.
-/

namespace Sys2Proof

/-- The four mnemonics (00_scope.md R2, 30_encoding.md R88). There are no others and no
pseudo-instructions (R98). -/
inductive Mnemonic where
  | loadConst
  | readMem
  | writeMem
  | sgn
deriving DecidableEq, Repr

/-- An instruction record, as `Decode` delivers it and `Encode` takes it (R109): one constructor per
row of the opcode table. The immediate is the signed value (R84), the address the unsigned 12-bit value
(R85). -/
inductive Instr where
  /-- LOAD_CONST v, format I, rule R151. -/
  | loadConst (v : Int)
  /-- READ_MEM addr, format A, rule R152. -/
  | readMem (addr : Address)
  /-- WRITE_MEM addr, format A, rule R153. -/
  | writeMem (addr : Address)
  /-- SGN addr, format A, rule R154. -/
  | sgn (addr : Address)
deriving DecidableEq, Repr

/-- The mnemonic half of a record (R109). -/
def Instr.mnemonic : Instr → Mnemonic
  | .loadConst _ => .loadConst
  | .readMem _ => .readMem
  | .writeMem _ => .writeMem
  | .sgn _ => .sgn

/-- The operand half of a record, as the mathematical integer of R109. -/
def Instr.operand : Instr → Int
  | .loadConst v => v
  | .readMem addr => addr.toNat
  | .writeMem addr => addr.toNat
  | .sgn addr => addr.toNat

end Sys2Proof
end

