-- ==== Sys2Proof/WellFormed.lean ====
section
/-!
DEFINITION. Which records are valid (40_codec.md R109) and which ones `Decode` can deliver (R116,
R117).
-/

namespace Sys2Proof

/-- The range of a LOAD_CONST operand: -16384 to 16383 (R109). -/
def immediateInRange (v : Int) : Bool := decide (-16384 ≤ v) && decide (v ≤ 16383)

/-- The range of a valid address operand: 0 to 2047 (R109). -/
def addressInRange (v : Int) : Bool := decide (0 ≤ v) && decide (v ≤ 2047)

/-- The range invariant on a mnemonic and an operand (R109); it is also what the assembler enforces
before it encodes (30_encoding.md R96). -/
def recordInRange (m : Mnemonic) (v : Int) : Bool :=
  match m with
  | .loadConst => immediateInRange v
  | .readMem => addressInRange v
  | .writeMem => addressInRange v
  | .sgn => addressInRange v

/-- A valid record (R109). -/
def Instr.wellFormed (i : Instr) : Bool := recordInRange i.mnemonic i.operand

/-- A record that `Decode` can deliver: an immediate in range (R116); any twelve-bit address, 2048 to
4095 included (R117). -/
def Instr.decodable : Instr → Bool
  | .loadConst v => immediateInRange v
  | .readMem _ => true
  | .writeMem _ => true
  | .sgn _ => true

end Sys2Proof
end

