-- ==== Sys2Proof/Decode.lean ====
section
/-!
DEFINITION. The instruction format codec: `Decode`, total on any three bytes, and `Encode`, defined on
valid records only (40_codec.md), with the field layout and opcode map of 30_encoding.md.
-/

namespace Sys2Proof

/-! ### Byte order -/

/-- The 24-bit word of three bytes, `b2 ++ b1 ++ b0` (00_scope.md R7, 20_memory.md R54). -/
def InstrBytes.word (b : InstrBytes) : InstrWord := b.b2 ++ b.b1 ++ b.b0

/-- The three bytes of a 24-bit word, least significant first (R7). -/
def InstrBytes.ofWord (w : InstrWord) : InstrBytes :=
  { b0 := w.extractLsb' 0 8, b1 := w.extractLsb' 8 8, b2 := w.extractLsb' 16 8 }

/-! ### Opcode map -/

/-- `Opcode(m)`: 14, 11, 7, 4 (R88, R109). -/
def Mnemonic.opcode : Mnemonic → BitVec 4
  | .loadConst => 14
  | .readMem => 11
  | .writeMem => 7
  | .sgn => 4

/-- The mnemonic that an opcode nibble selects; none for the twelve illegal values (R88, R89). -/
def mnemonicOfOpcode (op : BitVec 4) : Option Mnemonic :=
  if op = 14 then some .loadConst
  else if op = 11 then some .readMem
  else if op = 7 then some .writeMem
  else if op = 4 then some .sgn
  else none

/-! ### Fields -/

/-- The opcode field `b0[3:0]` (R81, R86). -/
def InstrBytes.opcode (b : InstrBytes) : BitVec 4 := b.b0.extractLsb' 0 4

/-- The 15-bit operand field of format I: `b2[2:0] ++ b1 ++ b0[7:4]`, that is `w[18:4]` (R82, R84). -/
def InstrBytes.immediateField (b : InstrBytes) : BitVec 15 :=
  b.b2.extractLsb' 0 3 ++ b.b1 ++ b.b0.extractLsb' 4 4

/-- The 12-bit operand field of format A as the decoder reads it: `b1 ++ b0[7:4]`, that is `w[15:4]`,
bit 11 not masked away (R85, decision D1; log 10). -/
def InstrBytes.addressField (b : InstrBytes) : Address := b.b1 ++ b.b0.extractLsb' 4 4

/-- The bits no format assigns: `b2[7:3]` in format I, all of `b2` in format A (R90). -/
def InstrBytes.reservedBits (m : Mnemonic) (b : InstrBytes) : Byte :=
  match m with
  | .loadConst => b.b2 &&& 0xF8
  | .readMem => b.b2
  | .writeMem => b.b2
  | .sgn => b.b2

/-- The sign rule (R84): test bit 14 (mask 0x4000); where it is set the value is the unsigned value less
32768. -/
def signRule (u : BitVec 15) : Int :=
  if u &&& 0x4000 ≠ 0 then (u.toNat : Int) - 32768 else (u.toNat : Int)

/-! ### Decode -/

/-- What `Decode` answers (R114): a record, or the error IllegalOpcode with the offending nibble. -/
inductive Decoded where
  | record (i : Instr)
  | illegalOpcode (op : BitVec 4)
deriving DecidableEq, Repr

/-- `Decode(b0, b1, b2)` (R114): the opcode alone selects the format (R86), reserved bits are ignored
(R90, decision D3; log 11), any other opcode is an error and never a default instruction (R89, R93). -/
def decode (b : InstrBytes) : Decoded :=
  match mnemonicOfOpcode b.opcode with
  | some .loadConst => .record (.loadConst (signRule b.immediateField))
  | some .readMem => .record (.readMem b.addressField)
  | some .writeMem => .record (.writeMem b.addressField)
  | some .sgn => .record (.sgn b.addressField)
  | none => .illegalOpcode b.opcode

/-! ### Encode -/

/-- The operand field value `f` that `Encode` packs (R111): `v mod 32768` for LOAD_CONST, the address
itself otherwise. -/
def Instr.operandField : Instr → BitVec 15
  | .loadConst v => BitVec.ofNat 15 (v % 32768).toNat
  | .readMem addr => addr.setWidth 15
  | .writeMem addr => addr.setWidth 15
  | .sgn addr => addr.setWidth 15

/-- The packing of an opcode and a field into three bytes (R111): `b2` carries field bits [14:12] for
LOAD_CONST and is 0 otherwise. -/
def pack (m : Mnemonic) (f : BitVec 15) : InstrBytes :=
  { b0 := f.extractLsb' 0 4 ++ m.opcode
    b1 := f.extractLsb' 4 8
    b2 := match m with
      | .loadConst => (f.extractLsb' 12 3).setWidth 8
      | .readMem => 0
      | .writeMem => 0
      | .sgn => 0 }

/-- `Encode` (R111), with no meaning outside valid records (R110, decision D15; log 21). -/
def encode (i : Instr) : Option InstrBytes :=
  if i.wellFormed then some (pack i.mnemonic i.operandField) else none

/-- The record of a mnemonic and an integer operand, where it is valid (R109): the caller's validation
that `Encode` presupposes (R96, R110). -/
def Instr.ofRecord (m : Mnemonic) (v : Int) : Option Instr :=
  if recordInRange m v then
    match m with
    | .loadConst => some (.loadConst v)
    | .readMem => some (.readMem (BitVec.ofInt 12 v))
    | .writeMem => some (.writeMem (BitVec.ofInt 12 v))
    | .sgn => some (.sgn (BitVec.ofInt 12 v))
  else none

/-- A canonical encoding by its bits (R91): a legal opcode, reserved bits zero, and in format A bit
`w[15]` (`b1[7]`) zero. -/
def InstrBytes.canonical (b : InstrBytes) : Bool :=
  match mnemonicOfOpcode b.opcode with
  | some .loadConst => b.reservedBits .loadConst == 0
  | some .readMem => b.reservedBits .readMem == 0 && !b.b1.msb
  | some .writeMem => b.reservedBits .writeMem == 0 && !b.b1.msb
  | some .sgn => b.reservedBits .sgn == 0 && !b.b1.msb
  | none => false

/-- The binary of a list of records: the flat concatenation of their encodings, no header, no length
prefix (R97, 10_state.md R35); none where a record is not valid. -/
def encodeProgram : List Instr → Option (List Byte)
  | [] => some []
  | i :: is =>
    match encode i, encodeProgram is with
    | some b, some bs => some (b.b0 :: b.b1 :: b.b2 :: bs)
    | _, _ => none

/-! ### The opcode table's words -/

/-- The bytes of a table word: bit 0 is the least significant bit of the first byte (R99), and every bit
at or above `nbits` is 0. -/
def tableBytes (nbits w : Nat) : InstrBytes := InstrBytes.ofWord (BitVec.ofNat 24 (w % 2 ^ nbits))

/-- The record of a decoding, where there is one. -/
def Decoded.toOption : Decoded → Option Instr
  | .record i => some i
  | .illegalOpcode _ => none

/-- The instruction the decoder reads from a word numbered as the opcode table numbers its bits. -/
def decodeTableWord (nbits w : Nat) : Option Instr := (decode (tableBytes nbits w)).toOption

end Sys2Proof
end

