-- ==== Sys2Proof/Config.lean ====
section
/-!
DEFINITION. What is fixed for the machine: the sizes of 00_scope.md R5 and the one value that spec/
leaves open.
-/

namespace Sys2Proof.Config

/-- The largest `MEM_LEN` a run may have (20_memory.md R53, decision D2). -/
abbrev maxMemLen : Nat := 2048

/-- The default of `memory_length` (R5, 41_fetch_decode_execute.md R130). -/
abbrev defaultMemLen : Nat := 2048

/-- The default of `step_limit` (R5, R130). -/
abbrev defaultStepLimit : Nat := 1000

/-- FREE VALUE: the content of `fault_operand` after an IllegalOpcode fault, which 10_state.md R30 calls
unspecified and 93_implementation_defined.md U8 "any value". It has no body, so nothing can be proved
of it. It is applied to the faulting word and the step count (log 7). -/
opaque unspecifiedFaultOperand : InstrWord → Nat → Address

end Sys2Proof.Config
end

