-- ==== Sys2Proof/Machine/State.lean ====
section
/-!
DEFINITION. The state of the machine (10_state.md R41), as plain data, the reasons an operation can stop
outside the machine's own faults, and the state after reset (R38).
-/

namespace Sys2Proof.Machine

/-- How the run stands (R29). -/
inductive Status where
  /-- The loop is active; the reset value. -/
  | running
  /-- Terminal: the program counter has passed the last instruction. -/
  | completed
  /-- Terminal: the step budget is spent, without error. -/
  | stepLimit
  /-- Terminal: a DecodeError or an ExecutionError stopped the run. -/
  | fault
deriving DecidableEq, Repr

/-- The cause field of the fault record (R30). -/
inductive FaultCause where
  /-- No fault recorded; the reset value. -/
  | none
  /-- DecodeError, 60_exceptions.md R171. -/
  | illegalOpcode
  /-- ExecutionError, R172. -/
  | addressOutOfRange
  /-- ExecutionError, R173. -/
  | stackUnderflow
deriving DecidableEq, Repr

/-- The fault record (R30), written once, by `raise`. -/
structure FaultRecord where
  cause : FaultCause
  step : Nat
  pc : Nat
  word : InstrWord
  operand : Address
deriving DecidableEq, Repr

/-- The run's configuration, fixed at reset and constant through the run (R31, R35). It stands in State
as plain data because a step sees nothing else (log 18). `memLen` cannot exceed 2048 (20_memory.md R53;
log 13). -/
structure RunConfig where
  prog : List Byte
  memLen : Fin 2049
  stepLimit : Nat
deriving DecidableEq, Repr

/-- Data memory: (cell address, value) pairs, addresses strictly rising, no entry 0, since a cell that is
not listed reads 0 (R33, R38; log 2). -/
abbrev Memory := List (Nat × Int)

/-- The canonical form of a memory. -/
abbrev Memory.wf (m : Memory) : Prop :=
  m.Pairwise (fun p q => p.1 < q.1) ∧ ∀ p ∈ m, p.2 ≠ 0

/-- The machine's state (R41). `stack` has its top first (R24; log 4); `trace` its oldest record first
(R36). -/
structure State where
  pc : Nat
  stepCount : Nat
  stack : List Int
  mem : Memory
  halted : Bool
  status : Status
  fault : FaultRecord
  trace : List Instr
  config : RunConfig
deriving DecidableEq, Repr

/-- Stops of the model outside the machine's own faults. The three faults of the spec are NOT here: taking
one is a next state (60_exceptions.md R181). -/
inductive Fault where
  /-- Raised by the host read port for an address at or above MEM_LEN, a cell that does not exist
  (20_memory.md R52, R55). Safe: the model stops where the spec gives no value. -/
  | noSuchCell (addr : Nat)
deriving DecidableEq, Repr

/-- What the model gives no meaning to. -/
inductive Refusal where
  /-- An instruction without a meaning in `exec`. No arm answers it: all four are modelled. Safe. -/
  | notModelled (mnemonic : String)
  /-- Raised by starting a run whose `memory_length` is outside 0 to 2048 (70_reset_and_hazards.md R205,
  decision D2). Safe: the spec gives such a run no meaning. -/
  | memoryLengthOutOfRange (memoryLength : Int)
  /-- Raised by starting a run whose `step_limit` is negative (R205, decision D22). Safe. -/
  | stepLimitNegative (stepLimit : Int)
  /-- Raised by a host read of machine state while the run is in progress (R206, U5). Safe: the host has
  no such move. -/
  | hostMoveDuringRun
deriving DecidableEq, Repr

/-- The fault record before any fault: no cause (R38). The other fields are unspecified there; DESIGN
CHOICE, unsafe: zero, as R38 has a model do (log 8). -/
def FaultRecord.reset : FaultRecord :=
  { cause := .none, step := 0, pc := 0, word := 0, operand := 0 }

/-- The state a run with this configuration begins in (R38, 70_reset_and_hazards.md R200). -/
def State.resetWith (config : RunConfig) : State :=
  { pc := 0
    stepCount := 0
    stack := []
    mem := []
    halted := false
    status := .running
    fault := .reset
    trace := []
    config := config }

/-- The configuration of a run that is given no argument: the defaults 2048 and 1000 (R31), and, DESIGN
CHOICE, unsafe, the empty binary, for which the spec has no default (log 9). -/
def RunConfig.default : RunConfig :=
  { prog := [], memLen := ⟨Config.defaultMemLen, by decide⟩, stepLimit := Config.defaultStepLimit }

/-- The machine right after reset. -/
def State.reset : State := .resetWith .default

end Sys2Proof.Machine
end

