-- ==== Sys2Proof/Machine/Flags.lean ====
section
/-!
DEFINITION. The machine has no flags (10_state.md R32). This file holds what stands in their place: the
sign test of SGN, whose result is a value (42_stack_memory_instructions.md R156), the numeric codes of
the status and fault cause (R29, R30), and the sequencer's comparators (41_fetch_decode_execute.md R145).
-/

namespace Sys2Proof.Machine

/-- `sgn(v)`: 1, -1 or 0 (00_scope.md R9, R154). -/
def signOf (v : Int) : Int := if 0 < v then 1 else if v < 0 then -1 else 0

/-- The 2-bit code of a status (table T29). -/
def Status.code : Status → BitVec 2
  | .running => 0
  | .completed => 1
  | .stepLimit => 2
  | .fault => 3

/-- The 2-bit code of a fault cause (table T30). -/
def FaultCause.code : FaultCause → BitVec 2
  | .none => 0
  | .illegalOpcode => 1
  | .addressOutOfRange => 2
  | .stackUnderflow => 3

/-- `N`, the number of instructions of the binary: `ceil(PROG_LEN / 3)` (R131). -/
def RunConfig.numInstrs (c : RunConfig) : Nat := (c.prog.length + 2) / 3

/-- The comparator `pc >= N` (R135, R145). -/
def State.atEnd (s : State) : Bool := decide (s.config.numInstrs ≤ s.pc)

/-- The comparator `step >= STEP_LIMIT` (R135, R145). -/
def State.budgetSpent (s : State) : Bool := decide (s.config.stepLimit ≤ s.stepCount)

/-- `depth`, the number of entries on the stack (10_state.md R24). -/
def State.depth (s : State) : Nat := s.stack.length

end Sys2Proof.Machine
end

