-- ==== Sys2Proof/Machine/Operands.lean ====
section
/-!
DEFINITION. The two operand forms: an immediate, used as it is (30_encoding.md R84), and an absolute data
address (42_stack_memory_instructions.md R159) with its bounds check (20_memory.md R55).
-/

namespace Sys2Proof.Machine

/-- The effective address is the decoded operand itself, a cell index: no base, index, scaling or
modification (R159). -/
def effectiveAddress (addr : Address) : Nat := addr.toNat

/-- `CheckAddr` (R55), the bounds checker's output `addr_oob` of R161: unsigned, on the full twelve bits,
made before any state change. -/
def State.addrOutOfRange (s : State) (addr : Address) : Bool :=
  decide (s.config.memLen.val ≤ effectiveAddress addr)

end Sys2Proof.Machine
end

