-- ==== Sys2Proof/Machine/Ops.lean ====
section
/-!
DEFINITION. The named operations over memory, stack and program store, taking a fault, completing an
instruction, and the sequencer's pass.
-/

namespace Sys2Proof.Machine

/-! ### Data memory -/

/-- What a cell that no instruction has written reads as: 0, by the source's zero-initialisation (R33,
R38). -/
def unwrittenCell : Int := 0

/-- The value of cell `a`. -/
def Memory.read : Memory → Nat → Int
  | [], _ => unwrittenCell
  | (k, v) :: m, a => if k = a then v else Memory.read m a

/-- Memory with cell `a` set to `v`, in canonical form: a cell that becomes what an unlisted one reads as
is not listed. -/
def Memory.write : Memory → Nat → Int → Memory
  | [], a, v => if v = unwrittenCell then [] else [(a, v)]
  | (k, x) :: m, a, v =>
    if a < k then (if v = unwrittenCell then (k, x) :: m else (a, v) :: (k, x) :: m)
    else if a = k then (if v = unwrittenCell then m else (a, v) :: m)
    else (k, x) :: Memory.write m a v

/-- `MemRead(a)` (20_memory.md R55): one whole cell, no side effect (R58). Its callers check the address
first. -/
def State.memRead (s : State) (a : Nat) : Int := s.mem.read a

/-- `MemWrite(a, v)` (R55): only that cell changes (R58). Its callers check the address first. -/
def State.memWrite (s : State) (a : Nat) (v : Int) : State := { s with mem := s.mem.write a v }

/-! ### The operand stack -/

/-- `push(v)` (10_state.md R24); the stack is not bounded (R26). -/
def State.push (s : State) (v : Int) : State := { s with stack := v :: s.stack }

/-- `pop()` (R24): the top entry and the state without it; defined only when the stack is not empty. -/
def State.pop (s : State) : Option (Int × State) :=
  match s.stack with
  | [] => none
  | v :: rest => some (v, { s with stack := rest })

/-! ### The program store -/

/-- `byte(k)` (41_fetch_decode_execute.md R131): a byte past the end of the binary is taken as 0. -/
def RunConfig.byteAt (c : RunConfig) (k : Nat) : Byte := c.prog.getD k 0

/-- `Fetch(i)` (R131): the bytes at offsets `3*i`, `3*i + 1`, `3*i + 2`, zero-padded. -/
def RunConfig.fetch (c : RunConfig) (i : Nat) : InstrBytes :=
  { b0 := c.byteAt (3 * i), b1 := c.byteAt (3 * i + 1), b2 := c.byteAt (3 * i + 2) }

/-- The three bytes of the instruction at the program counter (R134, action 1). -/
def State.fetch (s : State) : InstrBytes := s.config.fetch s.pc

/-- The binary with the three bytes of instruction `i` replaced by `b`, extended with zero bytes where it
is too short to hold them. -/
def placeInstr (prog : List Byte) (i : Nat) (b : InstrBytes) : List Byte :=
  (prog.take (3 * i) ++ List.replicate (3 * i - prog.length) 0) ++
    (b.b0 :: b.b1 :: b.b2 :: prog.drop (3 * i + 3))

/-! ### Faults -/

/-- What a step raises, with the `info` the spec gives it (60_exceptions.md R171 to R173). -/
inductive Raised where
  | illegalOpcode
  | addressOutOfRange (addr : Address)
  | stackUnderflow (addr : Address)
deriving DecidableEq, Repr

/-- The cause that a raise records (R180). -/
def Raised.cause : Raised → FaultCause
  | .illegalOpcode => .illegalOpcode
  | .addressOutOfRange _ => .addressOutOfRange
  | .stackUnderflow _ => .stackUnderflow

/-- The operand that a raise records (R180): the decoded address for causes 2 and 3; unspecified, and so
a free value, for cause 1 (10_state.md R30; log 7). -/
def Raised.recordedOperand (r : Raised) (word : InstrWord) (step : Nat) : Address :=
  match r with
  | .illegalOpcode => Config.unspecifiedFaultOperand word step
  | .addressOutOfRange addr => addr
  | .stackUnderflow addr => addr

/-- The fault record that a raise in state `s` writes (R180). The word is that of the instruction at the
program counter, after zero padding. -/
def State.faultRecord (s : State) (r : Raised) : FaultRecord :=
  { cause := r.cause
    step := s.stepCount
    pc := s.pc
    word := s.fetch.word
    operand := r.recordedOperand s.fetch.word s.stepCount }

/-- TAKING A FAULT, `raise` (R181): the fault record is written, the status becomes FAULT and nothing else
changes; the program counter stays at the faulting instruction. There is no handler (R177) and no return
(R182), so no operation undoes it. -/
def State.raise (s : State) (r : Raised) : State :=
  { s with status := .fault, fault := s.faultRecord r }

/-! ### Completing an instruction -/

/-- Action 4 of the step (R134): the program counter and the step counter advance by 1 and the decoded
record joins the trace. -/
def State.retire (s : State) (i : Instr) : State :=
  { s with pc := s.pc + 1, stepCount := s.stepCount + 1, trace := s.trace ++ [i] }

/-- Actions 3 and 4 of the step (R134) for record `i` begun in state `s`, from what the instruction's own
pseudocode answers: where that raised, the fault is taken IN `s`, so that the instruction has had no
effect at all (R181, decision D11); where it did not, the instruction retires. -/
def State.finish (s : State) (i : Instr) (r : Except Raised State) :
    Host.Outcome State Fault Refusal :=
  match r with
  | .error raised => .next (s.raise raised)
  | .ok t => .next (t.retire i)

/-! ### The sequencer -/

/-- What the sequencer does with a state (R135). -/
inductive Pass where
  /-- The run has ended: nothing is done. -/
  | ended
  /-- `status <- COMPLETED`. -/
  | complete
  /-- `status <- STEP_LIMIT`. -/
  | spend
  /-- One step of the fetch-decode-execute unit. -/
  | step
deriving DecidableEq, Repr

/-- The sequencer's tests, made before every step (R135): `pc >= N` first (decision D12; log 17), then
`step >= STEP_LIMIT`. A terminal status does not change (10_state.md R29; log 6). -/
def State.pass (s : State) : Pass :=
  match s.status with
  | .completed => .ended
  | .stepLimit => .ended
  | .fault => .ended
  | .running => if s.atEnd then .complete else if s.budgetSpent then .spend else .step

/-- Actions 1 and 2 of the step (R134), then `execute`: fetch and decode the instruction at the program
counter, now and not before (decision D7; log 12). -/
def State.fetchDecodeExecute (execute : Instr → State → Host.Outcome State Fault Refusal) (s : State) :
    Host.Outcome State Fault Refusal :=
  match decode s.fetch with
  | .record i => execute i s
  | .illegalOpcode _ => .next (s.raise .illegalOpcode)

/-- One pass of `Sequence` (R135). -/
def State.sequence (execute : Instr → State → Host.Outcome State Fault Refusal) (s : State) :
    Host.Outcome State Fault Refusal :=
  match s.pass with
  | .ended => .next s
  | .complete => .next { s with status := .completed }
  | .spend => .next { s with status := .stepLimit }
  | .step => s.fetchDecodeExecute execute

/-- `s` with the instruction bytes `b` at its program counter and ready to run them: RUNNING, and with
budget for one more step. -/
def State.withInstrBytes (s : State) (b : InstrBytes) : State :=
  { s with
    status := .running
    config :=
      { s.config with
        prog := placeInstr s.config.prog s.pc b
        stepLimit := max s.config.stepLimit (s.stepCount + 1) } }

end Sys2Proof.Machine
end

