-- ==== Sys2Proof/Machine/DataMemory.lean ====
section
/-!
DEFINITION. The address family (format A): READ_MEM, WRITE_MEM and SGN (42_stack_memory_instructions.md
R152 to R154). Every check precedes every change (60_exceptions.md R176).
-/

namespace Sys2Proof.Machine

/-- READ_MEM addr (R152): push a copy of the cell. -/
def execReadMem (addr : Address) (s : State) : Host.Outcome State Fault Refusal :=
  s.finish (.readMem addr)
    (if s.addrOutOfRange addr then .error (.addressOutOfRange addr)
     else .ok (s.push (s.memRead (effectiveAddress addr))))

/-- WRITE_MEM addr (R153): pop the top entry into the cell. The address is checked before the depth
(R176, decision D10; log 14). -/
def execWriteMem (addr : Address) (s : State) : Host.Outcome State Fault Refusal :=
  s.finish (.writeMem addr)
    (if s.addrOutOfRange addr then .error (.addressOutOfRange addr)
     else
      match s.pop with
      | none => .error (.stackUnderflow addr)
      | some (v, t) => .ok (t.memWrite (effectiveAddress addr) v))

/-- SGN addr (R154): push the sign of the cell; it neither pops nor reads the stack. -/
def execSgn (addr : Address) (s : State) : Host.Outcome State Fault Refusal :=
  s.finish (.sgn addr)
    (if s.addrOutOfRange addr then .error (.addressOutOfRange addr)
     else .ok (s.push (signOf (s.memRead (effectiveAddress addr)))))

end Sys2Proof.Machine
end

