-- ==== Sys2Proof/Machine/Immediate.lean ====
section
/-!
DEFINITION. The immediate family (format I): LOAD_CONST (42_stack_memory_instructions.md R151).
-/

namespace Sys2Proof.Machine

/-- LOAD_CONST v (R151): push v. It raises nothing. -/
def execLoadConst (v : Int) (s : State) : Host.Outcome State Fault Refusal :=
  s.finish (.loadConst v) (.ok (s.push v))

end Sys2Proof.Machine
end

