-- ==== Sys2Proof/Machine/Dispatch.lean ====
section
/-!
DEFINITION. `Execute(r)` dispatches on the mnemonic (42_stack_memory_instructions.md R150).
-/

namespace Sys2Proof.Machine

def exec (i : Instr) (s : State) : Host.Outcome State Fault Refusal :=
  match i with
  | .loadConst v => Sys2Proof.Machine.execLoadConst v s
  | .readMem addr => Sys2Proof.Machine.execReadMem addr s
  | .writeMem addr => Sys2Proof.Machine.execWriteMem addr s
  | .sgn addr => Sys2Proof.Machine.execSgn addr s

end Sys2Proof.Machine
end

