-- ==== Sys2Proof/Machine/Step.lean ====
section
/-!
DEFINITION. One step of the model is one pass of the sequencer (41_fetch_decode_execute.md R135): the
termination tests, and then, where neither holds, one fetch-decode-execute step (R134).
-/

namespace Sys2Proof.Machine

/-- One pass of `Sequence` (R135) with the four instructions' meanings. -/
def step (s : State) : Host.Outcome State Fault Refusal := s.sequence exec

/-- `s` with the table word `w` where `step` fetches next: in the loaded binary at the program counter.
It stands for the host's loading of a binary (log 9). -/
def State.withFetchWord (s : State) (nbits w : Nat) : State := s.withInstrBytes (tableBytes nbits w)

end Sys2Proof.Machine
end

