-- ==== Sys2Proof/Machine/Run.lean ====
section
/-!
DEFINITION. The host's side: starting a run (70_reset_and_hazards.md R204, R205), the whole run
(41_fetch_decode_execute.md R130, R136), and what the host reads after it (R137, R207).
-/

namespace Sys2Proof.Machine

/-- Starting a run on its three arguments (R130, R205), which resets the machine (R200). A
`memory_length` outside 0 to 2048 and a negative `step_limit` are refused (U7; log 13). -/
def State.start (binary : List Byte) (memoryLength : Int := Config.defaultMemLen)
    (stepLimit : Int := Config.defaultStepLimit) : Host.Outcome State Fault Refusal :=
  if h : 0 ≤ memoryLength ∧ memoryLength ≤ Config.maxMemLen then
    if 0 ≤ stepLimit then
      .next (.resetWith
        { prog := binary
          memLen := ⟨memoryLength.toNat, by have h2 : memoryLength ≤ 2048 := h.2; omega⟩
          stepLimit := stepLimit.toNat })
    else .refused (.stepLimitNegative stepLimit)
  else .refused (.memoryLengthOutOfRange memoryLength)

/-- At most `k` passes of the loop `while status = RUNNING: Sequence` (R136). -/
def State.loop : Nat → State → Host.Outcome State Fault Refusal
  | 0, s => .next s
  | k + 1, s =>
    if s.status = .running then
      match step s with
      | .next t => State.loop k t
      | .fault r => .fault r
      | .refused r => .refused r
    else .next s

/-- A bound on the passes of the loop from reset: one for each of the at most `min(N, STEP_LIMIT)` steps
and one that ends the run (R136). -/
def RunConfig.passBound (c : RunConfig) : Nat := min c.numInstrs c.stepLimit + 1

/-- `Run(prog, MEM_LEN, STEP_LIMIT)` up to its final state (R136). -/
def run (binary : List Byte) (memoryLength : Int := Config.defaultMemLen)
    (stepLimit : Int := Config.defaultStepLimit) : Host.Outcome State Fault Refusal :=
  match State.start binary memoryLength stepLimit with
  | .next s => s.loop s.config.passBound
  | .fault r => .fault r
  | .refused r => .refused r

/-- The whole of data memory, cell 0 first (R207). -/
def State.dump (s : State) : List Int := (List.range s.config.memLen.val).map s.memRead

/-- The result of a run (table T137). -/
inductive RunResult where
  /-- COMPLETED or STEP_LIMIT: the decoded trace and the final data memory. -/
  | normal (trace : List Instr) (memory : List Int)
  /-- FAULT: the fault record. -/
  | fatal (record : FaultRecord)
deriving DecidableEq, Repr

/-- The result that a state delivers (R137): none while the run is in progress (R206). -/
def State.result (s : State) : Option RunResult :=
  match s.status with
  | .running => none
  | .completed => some (.normal s.trace s.dump)
  | .stepLimit => some (.normal s.trace s.dump)
  | .fault => some (.fatal s.fault)

/-- What the host may read of a machine whose run is over (R207). -/
structure HostView where
  status : Status
  /-- The fault record, there exactly when the status is FAULT. -/
  fault : Option FaultRecord
  /-- The trace, after a FAULT too (decision D18; log 26). -/
  trace : List Instr
  /-- Every cell of data memory, cell 0 first. -/
  memory : List Int
  /-- The stack, top first, there exactly when the status is FAULT: R137 has the host read it then
  (decision D18; log 26), and it is part of no other result (10_state.md R26). -/
  stack : Option (List Int)
deriving DecidableEq, Repr

/-- The host's read of the final state (R207, R137): usable only when the run is not in progress (R206). It
changes nothing. -/
def State.hostView (s : State) : Host.Outcome HostView Fault Refusal :=
  if s.status = .running then .refused .hostMoveDuringRun
  else .next
    { status := s.status
      fault := if s.status = .fault then some s.fault else none
      trace := s.trace
      memory := s.dump
      stack := if s.status = .fault then some s.stack else none }

/-- The host's read port onto data memory (R161, R207): usable only when the run is not in progress
(R206), on a cell that exists (log 20). -/
def State.hostReadCell (s : State) (a : Nat) : Host.Outcome Int Fault Refusal :=
  if s.status = .running then .refused .hostMoveDuringRun
  else if a < s.config.memLen.val then .next (s.memRead a)
  else .fault (.noSuchCell a)

end Sys2Proof.Machine
end

