-- ==== Sys2Proof/Machine/Ports.lean ====
section
/-!
DEFINITION. The transaction-level interface (40_codec.md R121, 41_fetch_decode_execute.md R145,
42_stack_memory_instructions.md R161; decision D16). The names and packings are spec/'s own; no clock
and no handshake is implied, and the ports add no behaviour to the rules they show. Push, pop, the bounds
checker and the host read port are the operations of the same names (`State.push`, `State.pop`,
`State.addrOutOfRange`, `State.hostReadCell`); the data memory's two ports are `State.readPort` and
`State.writePort`, and which ports an instruction and a step drive is `State.portsOf` and
`State.stepPorts`.
-/

namespace Sys2Proof.Machine

/-- The packer (R121): for format A the low 11 bits of the operand, the rest zero. DESIGN CHOICE, unsafe
(log 27): where a format A operand comes with a bit above bit 10 set, which is no valid record and which
R121 does not speak of, that bit is dropped (so READ_MEM 2048 packs as READ_MEM 0). -/
def packerPort (encMnemonic : Mnemonic) (encOperand : BitVec 15) : InstrWord :=
  match encMnemonic with
  | .loadConst => (pack .loadConst encOperand).word
  | .readMem => (pack .readMem (encOperand &&& 0x7FF)).word
  | .writeMem => (pack .writeMem (encOperand &&& 0x7FF)).word
  | .sgn => (pack .sgn (encOperand &&& 0x7FF)).word

/-- The outputs of the unpacker (R121). The mnemonic and the operand are there exactly when `decValid`
is. -/
structure DecoderPort where
  decValid : Bool
  decMnemonic : Option Mnemonic
  decOperand : Option Int
  decIllegal : Bool
deriving DecidableEq, Repr

/-- The unpacker and decoder (R121). -/
def decoderPort (decBytes : InstrWord) : DecoderPort :=
  match decode (.ofWord decBytes) with
  | .record i =>
    { decValid := true, decMnemonic := some i.mnemonic, decOperand := some i.operand,
      decIllegal := false }
  | .illegalOpcode _ =>
    { decValid := false, decMnemonic := none, decOperand := none, decIllegal := true }

/-- The program store port's answer to a byte offset (R145). -/
structure ProgramStorePort where
  imemData : Byte
  imemValid : Bool
deriving DecidableEq, Repr

/-- The program store port (R145): `imem_valid` is 0 past the end of the binary, where the byte is taken
as 0. -/
def RunConfig.programStorePort (c : RunConfig) (imemAddr : Nat) : ProgramStorePort :=
  { imemData := c.byteAt imemAddr, imemValid := decide (imemAddr < c.prog.length) }

/-- The stack port's `empty` output: `depth = 0` (R161). -/
def State.stackEmpty (s : State) : Bool := decide (s.depth = 0)

/-- The data memory's read port (R161): `rd_addr` in, `rd_data` out. The address is checked before the port
is used. -/
def State.readPort (s : State) (rdAddr : Address) : Int := s.memRead (effectiveAddress rdAddr)

/-- The data memory's write port (R161): with `wr_en` the cell is written, without it nothing is, whatever
`wr_addr` and `wr_data` hold. The address is checked before the port is used. -/
def State.writePort (s : State) (wrAddr : Address) (wrData : Int) (wrEn : Bool) : State :=
  if wrEn then s.memWrite (effectiveAddress wrAddr) wrData else s

/-- A use of the read port. -/
structure ReadUse where
  rdAddr : Address
  rdData : Int
deriving DecidableEq, Repr

/-- A use of the write port. -/
structure WriteUse where
  wrAddr : Address
  wrData : Int
deriving DecidableEq, Repr

/-- The stack and memory ports as one instruction drives them (R161): the value pushed, the value that the
pop returned, the read and the write, each none where that port is not used. -/
structure PortUse where
  push : Option Int
  pop : Option Int
  read : Option ReadUse
  write : Option WriteUse
deriving DecidableEq, Repr

/-- No port is used. -/
def PortUse.idle : PortUse := { push := none, pop := none, read := none, write := none }

/-- `wr_en` (R161): 1 exactly where the write port is used. -/
def PortUse.wrEn (u : PortUse) : Bool := u.write.isSome

/-- The read of one cell whose value, through `f`, is pushed: the ports of READ_MEM and of SGN (R161). -/
def State.readAndPush (s : State) (addr : Address) (f : Int → Int) : PortUse :=
  { PortUse.idle with
    push := some (f (s.readPort addr))
    read := some { rdAddr := addr, rdData := s.readPort addr } }

/-- The ports that an instruction drives (R161): LOAD_CONST push; READ_MEM read, push; WRITE_MEM pop, write;
SGN read, push. The bounds checker and `empty` come before any port is used, so an instruction that faults
drives none (60_exceptions.md R176, R181). -/
def State.portsOf (s : State) (i : Instr) : PortUse :=
  match i with
  | .loadConst v => { PortUse.idle with push := some v }
  | .readMem addr => if s.addrOutOfRange addr then .idle else s.readAndPush addr id
  | .writeMem addr =>
    if s.addrOutOfRange addr then .idle
    else
      match s.pop with
      | none => .idle
      | some (v, _) =>
        { PortUse.idle with pop := some v, write := some { wrAddr := addr, wrData := v } }
  | .sgn addr => if s.addrOutOfRange addr then .idle else s.readAndPush addr signOf

/-- The ports that one pass of the sequencer drives (R161): those of the decoded instruction where the pass
is a step, none where it is not or where the opcode is illegal. -/
def State.stepPorts (s : State) : PortUse :=
  match s.pass with
  | .ended => .idle
  | .complete => .idle
  | .spend => .idle
  | .step =>
    match decode s.fetch with
    | .record i => s.portsOf i
    | .illegalOpcode _ => .idle

/-- The stack after the pop port has been used, or not. -/
def State.afterPop (s : State) (popped : Option Int) : State :=
  match popped, s.pop with
  | some _, some (_, t) => t
  | _, _ => s

/-- The memory after the write port has been used, or not. -/
def State.afterWrite (s : State) (write : Option WriteUse) : State :=
  match write with
  | some w => s.writePort w.wrAddr w.wrData true
  | none => s

/-- The stack after the push port has been used, or not. -/
def State.afterPush (s : State) (pushed : Option Int) : State :=
  match pushed with
  | some v => s.push v
  | none => s

/-- What driving the ports does to the stack and to data memory: the pop, the write, the push. -/
def State.drive (s : State) (u : PortUse) : State :=
  ((s.afterPop u.pop).afterWrite u.write).afterPush u.push

/-- The outputs of the sequencer (R145). -/
structure SequencerPort where
  status : BitVec 2
  pc : Nat
  step : Nat
  faultCause : BitVec 2
  faultStep : Nat
  faultPc : Nat
  faultWord : InstrWord
  faultOperand : Address
  halted : Bool
deriving DecidableEq, Repr

/-- The sequencer's outputs in a state (R145). -/
def State.sequencerPort (s : State) : SequencerPort :=
  { status := s.status.code
    pc := s.pc
    step := s.stepCount
    faultCause := s.fault.cause.code
    faultStep := s.fault.step
    faultPc := s.fault.pc
    faultWord := s.fault.word
    faultOperand := s.fault.operand
    halted := s.halted }

/-- The mnemonic of the faulting instruction, recovered from `fault_word[3:0]` (10_state.md R30); none
for an unrecognised opcode. -/
def FaultRecord.mnemonic (r : FaultRecord) : Option Mnemonic :=
  mnemonicOfOpcode (InstrBytes.ofWord r.word).opcode

/-- The trace stream over one pass from `s` to `t`: a pulse with the record exactly when a step has
completed (R145). -/
def tracePulse (s t : State) : Option Instr :=
  if t.stepCount = s.stepCount + 1 then t.trace.getLast? else none

end Sys2Proof.Machine
end

