-- ==== Sys2Proof/Safety.lean ====
section
/-!
DEFINITION. What counts as a sound state and a safe run, in the terms statements use: the invariants of
every reachable state (41_fetch_decode_execute.md R141, 10_state.md R34), a fault-free run and the check
of what its program must ensure (70_reset_and_hazards.md R203), and the plain stack-and-array reading of
a trace (20_memory.md R61).
-/

namespace Sys2Proof.Machine

/-- The range of every value the machine ever holds (R34). -/
def valueInRange (v : Int) : Prop := -16384 ≤ v ∧ v ≤ 16383

/-- Data memory is in canonical form, lists only cells that exist, and holds only values in range. -/
structure State.MemorySound (s : State) : Prop where
  canonical : s.mem.wf
  cells_exist : ∀ p ∈ s.mem, p.1 < s.config.memLen.val
  values_in_range : ∀ p ∈ s.mem, valueInRange p.2

/-- The counters agree and stay within their bounds (R141), and `halted` is false (R28). -/
structure State.CountersSound (s : State) : Prop where
  pc_eq_step : s.pc = s.stepCount
  pc_le : s.pc ≤ s.config.numInstrs
  step_le : s.stepCount ≤ s.config.stepLimit
  depth_le : s.depth ≤ s.stepCount
  halted_false : s.halted = false

/-- The trace has one record for each step (R141): the decoding of the instruction with that index
(R134). -/
structure State.TraceSound (s : State) : Prop where
  length_eq : s.trace.length = s.stepCount
  records_decode : ∀ k i, s.trace[k]? = some i → decode (s.config.fetch k) = .record i

/-- Status and fault record fit each other and the counters (R29, R30, R135, R140, R180). -/
structure State.StatusSound (s : State) : Prop where
  fault_iff_cause : s.status = .fault ↔ s.fault.cause ≠ .none
  completed_at_end : s.status = .completed → s.config.numInstrs ≤ s.pc
  step_limit_spent : s.status = .stepLimit →
    s.config.stepLimit ≤ s.stepCount ∧ s.pc < s.config.numInstrs
  fault_recorded : s.status = .fault →
    s.fault.step = s.stepCount ∧ s.fault.pc = s.pc ∧ s.fault.word = s.fetch.word ∧
      s.pc < s.config.numInstrs ∧ s.stepCount < s.config.stepLimit

/-- The invariants of every reachable state. -/
structure State.Sound (s : State) : Prop where
  memory : s.MemorySound
  stack_in_range : ∀ v ∈ s.stack, valueInRange v
  counters : s.CountersSound
  trace : s.TraceSound
  status : s.StatusSound

/-- A state is safe while no fault has been raised (60_exceptions.md R181). -/
def State.Safe (s : State) : Prop := s.status ≠ .fault

/-- What the decodings of a straight run of instructions must ensure not to fault, from a stack of the
given depth (R203): a legal opcode, an address below `MEM_LEN`, and an entry for every WRITE_MEM. -/
def faultFree (memLen : Nat) : Nat → List Decoded → Bool
  | _, [] => true
  | _, .illegalOpcode _ :: _ => false
  | depth, .record (.loadConst _) :: rest => faultFree memLen (depth + 1) rest
  | depth, .record (.readMem addr) :: rest =>
    decide (addr.toNat < memLen) && faultFree memLen (depth + 1) rest
  | 0, .record (.writeMem _) :: _ => false
  | depth + 1, .record (.writeMem addr) :: rest =>
    decide (addr.toNat < memLen) && faultFree memLen depth rest
  | depth, .record (.sgn addr) :: rest =>
    decide (addr.toNat < memLen) && faultFree memLen (depth + 1) rest

/-- The decodings of the `n` instructions from index `k` on. -/
def RunConfig.decodings (c : RunConfig) (k n : Nat) : List Decoded :=
  (List.range' k n).map fun i => decode (c.fetch i)

/-- The check of R203 on every instruction a run can reach from its start. -/
def RunConfig.runsClean (c : RunConfig) : Bool :=
  faultFree c.memLen.val 0 (c.decodings 0 (min c.numInstrs c.stepLimit))

/-- One record read over a plain stack and a plain array of cells: the sequential meaning of R61, with
nothing of State in it. -/
def replayInstr (d : List Int × (Nat → Int)) (i : Instr) : List Int × (Nat → Int) :=
  match i, d with
  | .loadConst v, (stack, cell) => (v :: stack, cell)
  | .readMem addr, (stack, cell) => (cell addr.toNat :: stack, cell)
  | .writeMem _, ([], cell) => ([], cell)
  | .writeMem addr, (v :: stack, cell) =>
    (stack, fun a => if a = addr.toNat then v else cell a)
  | .sgn addr, (stack, cell) => (Int.sign (cell addr.toNat) :: stack, cell)

/-- A trace replayed from an empty stack and cells all 0. -/
def replay (trace : List Instr) : List Int × (Nat → Int) :=
  trace.foldl replayInstr ([], fun _ => 0)

/-- The stack and every cell of `s` are what its trace replayed gives. -/
def State.IsReplay (s : State) : Prop := (s.stack, s.memRead) = replay s.trace

end Sys2Proof.Machine
end

