-- ==== Sys2Proof/Certificates/Slice0/Obligations.lean ====
section
/-!
DEFINITION. The statements for the provers. Each docstring names the rule or section of spec/ that it
formalises; where a clause rests on a decision of spec/ or on a choice of the model, it says so and names
the log entry. Data addresses are written `addr.toNat`, as the meanings compute them
(`effectiveAddress`).
-/

open Sys2Proof Sys2Proof.Machine

/-! ### The codec -/

/-- The round-trip law (40_codec.md R118). -/
def Obligations.DecodeAfterEncodeIsIdentity : Prop :=
  ∀ i : Instr, i.wellFormed = true → ∃ b, encode i = some b ∧ decode b = .record i

/-- Encoding what was decoded gives the same bytes exactly on canonical encodings; elsewhere the record is
invalid and has no encoding, or its encoding is the word with the reserved bits cleared (40_codec.md
section 4; that the decoder accepts such words rests on decisions D1 and D3 of spec/, log 10 and 11). -/
def Obligations.EncodeAfterDecodeIsIdentityExactlyOnCanonical : Prop :=
  (∀ b : InstrBytes, b.canonical = true ↔ ∃ i, decode b = .record i ∧ encode i = some b) ∧
  (∀ (b : InstrBytes) (i : Instr), decode b = .record i → b.canonical = false →
    (i.mnemonic ≠ .loadConst ∧ b.b1.msb = true ∧ i.wellFormed = false ∧ encode i = none) ∨
    (i.wellFormed = true ∧
      encode i = some { b with b2 := b.b2 ^^^ b.reservedBits i.mnemonic } ∧
      b.reservedBits i.mnemonic ≠ 0))

/-- What `Encode` produces, and that it produces each canonical encoding from exactly one record
(40_codec.md section 2, an inference spec/ marks as its own). -/
def Obligations.EncodeProducesEachCanonicalEncodingOnce : Prop :=
  (∀ (i : Instr) (b : InstrBytes), encode i = some b →
    b.opcode = i.mnemonic.opcode ∧ (i.mnemonic = .loadConst → b.b2 &&& 0xF8 = 0) ∧
    (i.mnemonic ≠ .loadConst → b.b2 = 0 ∧ b.b1.msb = false) ∧ b.canonical = true) ∧
  (∀ b : InstrBytes, b.canonical = true → ∃! i : Instr, encode i = some b)

/-- Different valid records have different encodings: the opcode tells mnemonics apart, the operand field
tells operands of one mnemonic apart (40_codec.md section 2, an inference spec/ marks as its own). -/
def Obligations.EncodeTellsValidRecordsApart : Prop :=
  ∀ (i j : Instr) (bi bj : InstrBytes), encode i = some bi → encode j = some bj → i ≠ j →
    bi ≠ bj ∧ (i.mnemonic ≠ j.mnemonic → bi.opcode ≠ bj.opcode) ∧
    (i.mnemonic = j.mnemonic → i.operandField ≠ j.operandField)

/-- A mnemonic and an integer operand make a record exactly in the operand's range, and `encode` answers
for exactly the valid records (40_codec.md sections 1 and 2; the refusal outside is decision D15 of spec/,
log 21). -/
def Obligations.RecordsAndEncodingsExistExactlyInRange : Prop :=
  (∀ (m : Mnemonic) (v : Int), recordInRange m v = true →
    ∃ i, Instr.ofRecord m v = some i ∧ i.mnemonic = m ∧ i.operand = v ∧ i.wellFormed = true) ∧
  (∀ (m : Mnemonic) (v : Int), recordInRange m v = false → Instr.ofRecord m v = none) ∧
  (∀ i : Instr, (encode i = none ↔ i.wellFormed = false))

/-- What each of the 2^24 words decodes to, by fields of the 24-bit word (30_encoding.md section 4, table
T92; the address's twelfth bit and the ignored bits are decisions D1 and D3 of spec/, log 10 and 11). -/
def Obligations.EveryWordDecodesAsTabulated : Prop :=
  ∀ w : InstrWord,
    (w.extractLsb' 0 4 = 14 →
      decode (.ofWord w) = .record (.loadConst (w.extractLsb' 4 15).toInt)) ∧
    (w.extractLsb' 0 4 = 11 → decode (.ofWord w) = .record (.readMem (w.extractLsb' 4 12))) ∧
    (w.extractLsb' 0 4 = 7 → decode (.ofWord w) = .record (.writeMem (w.extractLsb' 4 12))) ∧
    (w.extractLsb' 0 4 = 4 → decode (.ofWord w) = .record (.sgn (w.extractLsb' 4 12))) ∧
    (w.extractLsb' 0 4 ≠ 14 → w.extractLsb' 0 4 ≠ 11 → w.extractLsb' 0 4 ≠ 7 →
      w.extractLsb' 0 4 ≠ 4 → decode (.ofWord w) = .illegalOpcode (w.extractLsb' 0 4))

/-- The LOAD_CONST immediate: its assembly from the three bytes, the sign rule, its range, that it is the
two's-complement reading, and the encoder's inverse (30_encoding.md R84). -/
def Obligations.ImmediateFollowsTheSignRule : Prop :=
  (∀ b : InstrBytes, b.opcode = 14 →
    ∃ u : Nat, u = b.b0.toNat / 16 + 16 * b.b1.toNat + 4096 * (b.b2.toNat % 8) ∧ u < 32768 ∧
      (u < 16384 → decode b = .record (.loadConst u)) ∧
      (16384 ≤ u → decode b = .record (.loadConst ((u : Int) - 32768)))) ∧
  (∀ u : BitVec 15, signRule u = u.toInt ∧ -16384 ≤ signRule u ∧ signRule u ≤ 16383) ∧
  (∀ v : Int, -16384 ≤ v → v ≤ 16383 →
    ((Instr.loadConst v).operandField.toNat : Int) = v % 32768 ∧
    signRule (Instr.loadConst v).operandField = v)

/-- A decoded address is 0 to 4095, is valid exactly when `b1[7]` is 0, and with `b1[7]` set the
instruction faults when executed (40_codec.md section 3; decisions D1 and D2 of spec/, log 10 and 13; that
WRITE_MEM reports AddressOutOfRange then on an empty stack too is decision D10, log 14). -/
def Obligations.DecodedAddressIsValidExactlyBelow2048 : Prop :=
  ∀ (b : InstrBytes) (i : Instr), decode b = .record i → i.mnemonic ≠ .loadConst →
    0 ≤ i.operand ∧ i.operand ≤ 4095 ∧ (i.wellFormed = true ↔ b.b1.msb = false) ∧
    (b.b1.msb = true → ∀ s : State, ∃ t, exec i s = .next t ∧ t.status = .fault ∧
      t.fault.cause = .addressOutOfRange ∧ (t.fault.operand.toNat : Int) = i.operand)

/-- Bits that a format does not assign do not influence the decoded record, are zero in every encoding, and
`w[15]` is not one of them (30_encoding.md section 4; decisions D1 and D3 of spec/, log 10 and 11). -/
def Obligations.ReservedBitsDoNotInfluenceDecoding : Prop :=
  (∀ (b c : InstrBytes) (m : Mnemonic), mnemonicOfOpcode b.opcode = some m → c.b0 = b.b0 →
    c.b1 = b.b1 → c.b2 ^^^ c.reservedBits m = b.b2 ^^^ b.reservedBits m → decode c = decode b) ∧
  (∀ (i : Instr) (b : InstrBytes), encode i = some b → b.reservedBits i.mnemonic = 0) ∧
  decode ⟨0x0E, 0x00, 0xF8⟩ = .record (.loadConst 0) ∧
  decode ⟨0x4B, 0x06, 0xFF⟩ = .record (.readMem 100) ∧
  decode ⟨0x0B, 0x80, 0x00⟩ = .record (.readMem 2048)

/-- The twelve illegal opcode nibbles select no instruction whatever the other 20 bits hold, and a step
that reaches one raises IllegalOpcode; the all-zero and the all-ones word are among them (30_encoding.md
R89). A trailing partial record is fetched like any other, so it falls under the second clause. -/
def Obligations.IllegalOpcodesSelectNoInstruction : Prop :=
  (∀ b : InstrBytes, b.opcode ∉ [14, 11, 7, 4] → decode b = .illegalOpcode b.opcode) ∧
  (∀ s : State, s.status = .running → s.pc < s.config.numInstrs → s.stepCount < s.config.stepLimit →
    s.fetch.opcode ∉ [14, 11, 7, 4] →
    ∃ t, step s = .next t ∧ t.status = .fault ∧ t.fault.cause = .illegalOpcode ∧
      t.fault.step = s.stepCount ∧ t.fault.pc = s.pc ∧ t.fault.word = s.fetch.word) ∧
  decode ⟨0x00, 0x00, 0x00⟩ = .illegalOpcode 0 ∧ decode ⟨0xFF, 0xFF, 0xFF⟩ = .illegalOpcode 15

/-- The complete opcode map, as nibbles and as match and mask on the 24-bit word (30_encoding.md R88). -/
def Obligations.OpcodeMapIsComplete : Prop :=
  (∀ (w : InstrWord) (m : Mnemonic),
    (∃ i, decode (.ofWord w) = .record i ∧ i.mnemonic = m) ↔
      w &&& 0x00000F = m.opcode.setWidth 24) ∧
  (∀ (op : BitVec 4) (m : Mnemonic), mnemonicOfOpcode op = some m ↔ op = m.opcode) ∧
  Mnemonic.loadConst.opcode = 14 ∧ Mnemonic.readMem.opcode = 11 ∧
  Mnemonic.writeMem.opcode = 7 ∧ Mnemonic.sgn.opcode = 4

/-- `Encode` in numbers (40_codec.md R111), with its worked example. -/
def Obligations.EncodePacksOpcodeAndField : Prop :=
  (∀ i : Instr, i.wellFormed = true → ∃ (b : InstrBytes) (f : Nat), encode i = some b ∧
    (i.mnemonic = .loadConst → (f : Int) = i.operand % 32768) ∧
    (i.mnemonic ≠ .loadConst → (f : Int) = i.operand) ∧
    b.b0.toNat = i.mnemonic.opcode.toNat + 16 * (f % 16) ∧
    b.b1.toNat = f / 16 % 256 ∧
    (i.mnemonic = .loadConst → b.b2.toNat = f / 4096 % 8) ∧
    (i.mnemonic ≠ .loadConst → b.b2.toNat = 0) ∧
    b.word.toNat = i.mnemonic.opcode.toNat + 16 * f) ∧
  encode (.loadConst (-1)) = some ⟨0xFE, 0xFF, 0x07⟩

/-- Words written out from the encoding tables decode to the instructions they stand for
(95_test_vectors.md section 2.1: E7, E5, E34, E29). -/
def Obligations.WrittenOutWordsDecode : Prop :=
  decode ⟨0xFE, 0xFF, 0x07⟩ = .record (.loadConst (-1)) ∧
  decode ⟨0x4B, 0x06, 0x00⟩ = .record (.readMem 100) ∧
  decode ⟨0xF7, 0x3F, 0x00⟩ = .record (.writeMem 1023) ∧
  decode ⟨0xF4, 0x7F, 0x00⟩ = .record (.sgn 2047)

/-- Byte order of a fetched instruction: the byte at the lowest offset is `b0`, the word is little-endian,
and the fields are bits of that word (20_memory.md R54). -/
def Obligations.FetchedInstructionIsLittleEndian : Prop :=
  ∀ (c : RunConfig) (k : Nat),
    (c.fetch k).b0 = c.byteAt (3 * k) ∧ (c.fetch k).b1 = c.byteAt (3 * k + 1) ∧
    (c.fetch k).b2 = c.byteAt (3 * k + 2) ∧
    (c.fetch k).word.toNat =
      (c.fetch k).b0.toNat + 256 * (c.fetch k).b1.toNat + 65536 * (c.fetch k).b2.toNat ∧
    (c.fetch k).opcode.toNat = (c.byteAt (3 * k)).toNat % 16 ∧
    (c.fetch k).immediateField.toNat =
      (c.byteAt (3 * k)).toNat / 16 + 16 * (c.byteAt (3 * k + 1)).toNat +
        4096 * ((c.byteAt (3 * k + 2)).toNat % 8) ∧
    (c.fetch k).addressField.toNat =
      (c.byteAt (3 * k)).toNat / 16 + 16 * (c.byteAt (3 * k + 1)).toNat

/-- `Fetch` and `N`: the count, the bytes, and where zero padding can occur
(41_fetch_decode_execute.md R131). -/
def Obligations.FetchPadsTheLastRecordWithZeros : Prop :=
  ∀ c : RunConfig,
    c.prog.length ≤ 3 * c.numInstrs ∧ 3 * c.numInstrs < c.prog.length + 3 ∧
    (∀ k (h : k < c.prog.length), c.byteAt k = c.prog[k]) ∧
    (∀ k, c.prog.length ≤ k → c.byteAt k = 0) ∧
    (∀ i, c.fetch i = ⟨c.byteAt (3 * i), c.byteAt (3 * i + 1), c.byteAt (3 * i + 2)⟩) ∧
    (∀ i, i < c.numInstrs → 3 * i < c.prog.length) ∧
    (∀ i, i + 1 < c.numInstrs → 3 * i + 2 < c.prog.length) ∧
    (c.prog.length % 3 = 0 → ∀ i, i < c.numInstrs → 3 * i + 2 < c.prog.length) ∧
    (c.prog.length % 3 = 1 → (c.fetch (c.numInstrs - 1)).b1 = 0 ∧
      (c.fetch (c.numInstrs - 1)).b2 = 0) ∧
    (c.prog.length % 3 = 2 → 3 * (c.numInstrs - 1) + 1 < c.prog.length ∧
      (c.fetch (c.numInstrs - 1)).b2 = 0)

/-- The binary of a list of valid records has three bytes a record, and the machine that holds it fetches
and decodes the k-th record at index k; a list with an invalid record has no binary (30_encoding.md
section 5, 10_state.md section 6). -/
def Obligations.EncodedProgramDecodesRecordByRecord : Prop :=
  (∀ is : List Instr, (∀ i ∈ is, i.wellFormed = true) →
    ∃ bytes, encodeProgram is = some bytes ∧ bytes.length = 3 * is.length ∧
      ∀ c : RunConfig, c.prog = bytes → c.numInstrs = is.length ∧
        ∀ k i, is[k]? = some i → decode (c.fetch k) = .record i) ∧
  (∀ is : List Instr, (∃ i ∈ is, i.wellFormed = false) → encodeProgram is = none)

/-- The codec's ports agree with the codec: packing a valid record gives the word of its encoding, and
unpacking that word gives the mnemonic and operand back; on every one of the 2^24 words, canonical or not,
the unpacker shows what `decode` answers, its operand a signed 15-bit or an unsigned 12-bit number; exactly
the four opcodes are valid (40_codec.md section 5, decision D16 of spec/, log 22; that a decoded address
has twelve bits is decision D1, log 10). -/
def Obligations.CodecPortsAgreeWithTheCodec : Prop :=
  (∀ (i : Instr) (b : InstrBytes), encode i = some b →
    packerPort i.mnemonic i.operandField = b.word ∧
    decoderPort b.word =
      { decValid := true, decMnemonic := some i.mnemonic, decOperand := some i.operand,
        decIllegal := false }) ∧
  (∀ w : InstrWord, ((decoderPort w).decValid = true ↔ w.extractLsb' 0 4 ∈ [14, 11, 7, 4]) ∧
    (decoderPort w).decIllegal = !(decoderPort w).decValid) ∧
  (∀ (w : InstrWord) (i : Instr), decode (.ofWord w) = .record i →
    decoderPort w =
      { decValid := true, decMnemonic := some i.mnemonic, decOperand := some i.operand,
        decIllegal := false } ∧
    (i.mnemonic = .loadConst → -16384 ≤ i.operand ∧ i.operand ≤ 16383) ∧
    (i.mnemonic ≠ .loadConst → 0 ≤ i.operand ∧ i.operand ≤ 4095)) ∧
  (∀ (w : InstrWord) (op : BitVec 4), decode (.ofWord w) = .illegalOpcode op →
    decoderPort w =
      { decValid := false, decMnemonic := none, decOperand := none, decIllegal := true })

/-! ### The four instructions -/

/-- LOAD_CONST (42_stack_memory_instructions.md R151): it answers a next state for every operand and every
state; it pushes the signed value and changes nothing else but the counters and the trace. -/
def Obligations.LoadConstPushesItsConstant : Prop :=
  (∀ (v : Int) (s : State), ∃ t, exec (.loadConst v) s = .next t ∧
    t = { s with
          stack := v :: s.stack, pc := s.pc + 1, stepCount := s.stepCount + 1,
          trace := s.trace ++ [.loadConst v] } ∧
    ∀ a, t.memRead a = s.memRead a) ∧
  (∀ b : InstrBytes, b.opcode = 14 →
    decode b = .record (.loadConst (signRule b.immediateField)) ∧
    -16384 ≤ signRule b.immediateField ∧ signRule b.immediateField ≤ 16383) ∧
  signRule 0x7FFF = -1

/-- READ_MEM (42_stack_memory_instructions.md section 2): below `MEM_LEN` it pushes a copy of the cell and
changes nothing else; at or above it raises AddressOutOfRange with the stack unchanged; a cell never
written reads 0. That every word with opcode 11 decodes to it, with all twelve address bits and whatever
`b2` holds, is decisions D1 and D3 of spec/ (log 10 and 11). -/
def Obligations.ReadMemPushesTheCell : Prop :=
  (∀ (addr : Address) (s : State), addr.toNat < s.config.memLen.val →
    ∃ t, exec (.readMem addr) s = .next t ∧
      t = { s with
            stack := s.memRead addr.toNat :: s.stack, pc := s.pc + 1,
            stepCount := s.stepCount + 1, trace := s.trace ++ [.readMem addr] } ∧
      ∀ a, t.memRead a = s.memRead a) ∧
  (∀ (addr : Address) (s : State), s.config.memLen.val ≤ addr.toNat →
    exec (.readMem addr) s = .next (s.raise (.addressOutOfRange addr)) ∧
    (s.raise (.addressOutOfRange addr)).stack = s.stack) ∧
  (∀ b : InstrBytes, b.opcode = 11 → decode b = .record (.readMem b.addressField)) ∧
  (∀ (c : RunConfig) (a : Nat), (State.resetWith c).memRead a = 0)

/-- WRITE_MEM (42_stack_memory_instructions.md section 2): with a memory in canonical form, the address in
range and an entry on the stack it pops the top into the cell, and no other cell changes. With the address out of range it raises
AddressOutOfRange, whatever the stack holds (that the address is checked first is decision D10 of spec/,
log 14); in range on an empty stack it raises StackUnderflow. -/
def Obligations.WriteMemPopsIntoTheCell : Prop :=
  (∀ (addr : Address) (s : State) (v : Int) (rest : List Int), s.mem.wf →
    addr.toNat < s.config.memLen.val → s.stack = v :: rest →
    ∃ t, exec (.writeMem addr) s = .next t ∧
      t = { s with
            mem := t.mem, stack := rest, pc := s.pc + 1, stepCount := s.stepCount + 1,
            trace := s.trace ++ [.writeMem addr] } ∧
      t.memRead addr.toNat = v ∧ ∀ a, a ≠ addr.toNat → t.memRead a = s.memRead a) ∧
  (∀ (addr : Address) (s : State), s.config.memLen.val ≤ addr.toNat →
    exec (.writeMem addr) s = .next (s.raise (.addressOutOfRange addr))) ∧
  (∀ (addr : Address) (s : State), addr.toNat < s.config.memLen.val → s.stack = [] →
    exec (.writeMem addr) s = .next (s.raise (.stackUnderflow addr)))

/-- Taking a fault writes the fault record, sets the status and changes nothing else
(60_exceptions.md section 4; the record's packing is decision D9 of spec/, log 15, that a fault has no
other effect decision D11, log 5). The operand recorded for an IllegalOpcode is free, so nothing is said
of it (log 7). -/
def Obligations.RaiseRecordsTheFaultAndNothingElse : Prop :=
  ∀ (s : State) (r : Raised), ∃ operand : Address,
    s.raise r =
      { s with
        status := .fault
        fault :=
          { cause := r.cause, step := s.stepCount, pc := s.pc, word := s.fetch.word,
            operand := operand } } ∧
    (∀ addr, r = .addressOutOfRange addr → operand = addr ∧ r.cause = .addressOutOfRange) ∧
    (∀ addr, r = .stackUnderflow addr → operand = addr ∧ r.cause = .stackUnderflow) ∧
    (r = .illegalOpcode → r.cause = .illegalOpcode)

/-- SGN (42_stack_memory_instructions.md section 2): below `MEM_LEN` it pushes 1, -1 or 0 for a positive,
negative or zero cell and changes nothing else, whatever the stack holds; at or above it raises
AddressOutOfRange with nothing pushed. That every word with opcode 4 decodes to it, with all twelve address
bits and whatever `b2` holds, is decisions D1 and D3 of spec/ (log 10 and 11). -/
def Obligations.SgnPushesTheSignOfTheCell : Prop :=
  (∀ (addr : Address) (s : State), addr.toNat < s.config.memLen.val →
    ∃ (v : Int) (t : State), exec (.sgn addr) s = .next t ∧
      (0 < s.memRead addr.toNat → v = 1) ∧ (s.memRead addr.toNat < 0 → v = -1) ∧
      (s.memRead addr.toNat = 0 → v = 0) ∧
      t = { s with
            stack := v :: s.stack, pc := s.pc + 1, stepCount := s.stepCount + 1,
            trace := s.trace ++ [.sgn addr] } ∧
      ∀ a, t.memRead a = s.memRead a) ∧
  (∀ (addr : Address) (s : State), s.config.memLen.val ≤ addr.toNat →
    exec (.sgn addr) s = .next (s.raise (.addressOutOfRange addr)) ∧
    (s.raise (.addressOutOfRange addr)).stack = s.stack) ∧
  (∀ b : InstrBytes, b.opcode = 4 → decode b = .record (.sgn b.addressField))

/-- The bounds check and the memory primitives (20_memory.md section 4): each of the three instructions
faults exactly from `MEM_LEN` on, before any change; an address of 2048 or more always faults, so nothing
aliases; `MemWrite` changes its own cell only. Three clauses rest on decisions of spec/: that an
out-of-range WRITE_MEM reports AddressOutOfRange on an empty stack too on D10 (log 14), that 2048 and
above always fault on D2, by which `MEM_LEN` is at most 2048 (log 13), and that a fault changes nothing
but the status and the record on D11 (log 5). -/
def Obligations.BoundsCheckPrecedesEveryAccess : Prop :=
  (∀ (addr : Address) (s : State) (i : Instr), i ∈ [.readMem addr, .writeMem addr, .sgn addr] →
    ∃ t, exec i s = .next t ∧
      (s.config.memLen.val ≤ addr.toNat →
        t = { s with status := .fault, fault := t.fault } ∧ t.fault.cause = .addressOutOfRange) ∧
      (addr.toNat < s.config.memLen.val → t.status = .fault → s.status ≠ .fault →
        t.fault.cause ≠ .addressOutOfRange) ∧
      (2048 ≤ addr.toNat → t.status = .fault ∧ t.fault.cause = .addressOutOfRange)) ∧
  (∀ (s : State) (a b : Nat) (v : Int), s.mem.wf →
    (s.memWrite a v).memRead a = v ∧ (b ≠ a → (s.memWrite a v).memRead b = s.memRead b)) ∧
  (∀ (s : State) (a : Nat) (v : Int), ∃ m, s.memWrite a v = { s with mem := m })

/-- The program counter advances by exactly 1 with every instruction that does not fault, stays where it is
on a fault, and no step writes it in any other way (10_state.md R22). -/
def Obligations.ProgramCounterAdvancesByOneOrStays : Prop :=
  (∀ (s t : State), s.status = .running → s.pc < s.config.numInstrs →
    s.stepCount < s.config.stepLimit → step s = .next t →
    (t.status = .running ∧ t.pc = s.pc + 1) ∨ (t.status = .fault ∧ t.pc = s.pc)) ∧
  (∀ (s t : State), step s = .next t → t.pc = s.pc ∨ t.pc = s.pc + 1)

/-- The stack is last in, first out (10_state.md R24): which instruction pushes and which pops, that it is
one entry, and that no instruction depends on an entry other than the one it pops, since entries put below
the stack come out below it unread. -/
def Obligations.StackIsLastInFirstOut : Prop :=
  (∀ (i : Instr) (s t : State), s.status = .running → exec i s = .next t → t.status = .running →
    (i.mnemonic = .writeMem → ∃ v, s.stack = v :: t.stack) ∧
    (i.mnemonic ≠ .writeMem → ∃ v, t.stack = v :: s.stack)) ∧
  (∀ (i : Instr) (s t : State) (below : List Int), (i.mnemonic = .writeMem → s.stack ≠ []) →
    exec i s = .next t →
    exec i { s with stack := s.stack ++ below } = .next { t with stack := t.stack ++ below }) ∧
  (∀ (s : State) (v : Int), (s.push v).pop = some (v, s) ∧ (s.push v).depth = s.depth + 1) ∧
  (∀ s : State, s.pop = none ↔ s.depth = 0) ∧
  (∀ c : RunConfig, (State.resetWith c).stack = [])

/-- Data memory: `MEM_LEN` cells, all 0 at the start; nothing but a WRITE_MEM changes any, and that one only
its own; READ_MEM and SGN read one cell, so no other cell matters to them (10_state.md R33). -/
def Obligations.OnlyWriteMemChangesDataMemory : Prop :=
  (∀ (s t : State), step s = .next t →
    (∀ a, t.memRead a = s.memRead a) ∨
    (∃ addr, decode s.fetch = .record (.writeMem addr) ∧ addr.toNat < s.config.memLen.val ∧
      ∀ a, a ≠ addr.toNat → t.memRead a = s.memRead a)) ∧
  (∀ (addr : Address) (i : Instr) (s t : State) (m : Memory), i ∈ [.readMem addr, .sgn addr] →
    m.read addr.toNat = s.memRead addr.toNat → exec i s = .next t →
    exec i { s with mem := m } = .next { t with mem := m }) ∧
  (∀ s : State, s.dump.length = s.config.memLen.val ∧
    ∀ a (h : a < s.dump.length), s.dump[a] = s.memRead a) ∧
  (∀ (c : RunConfig) (a : Nat), (State.resetWith c).memRead a = 0)

/-- No store reaches the instruction space: the configuration, the binary with it, is the same after any
number of passes, and so is every fetched instruction (20_memory.md R64). -/
def Obligations.InstructionSpaceIsImmutable : Prop :=
  (∀ (s t : State), step s = .next t → t.config = s.config) ∧
  (∀ (k : Nat) (s t : State), s.loop k = .next t →
    t.config = s.config ∧ ∀ i, t.config.fetch i = s.config.fetch i) ∧
  (∀ (s : State) (a : Nat) (v : Int), (s.memWrite a v).config = s.config)

/-- No step writes `halted` (10_state.md section 5, with decision D8 of spec/ that a fault does not set it
either, log 15). -/
def Obligations.NoStepSetsHalted : Prop :=
  (∀ (s t : State), step s = .next t → t.halted = s.halted) ∧
  (∀ (k : Nat) (c : RunConfig) (t : State), (State.resetWith c).loop k = .next t → t.halted = false)

/-! ### The step and the sequencer -/

/-- A step runs the instruction that the bytes at the program counter decode to
(41_fetch_decode_execute.md section 3; that it is decoded then and not before is decision D7 of spec/,
log 12). `exec` includes the advance of the counters and the trace. -/
def Obligations.StepRunsTheDecodedInstruction : Prop :=
  ∀ (s : State) (i : Instr), s.status = .running → s.pc < s.config.numInstrs →
    s.stepCount < s.config.stepLimit → decode s.fetch = .record i → step s = exec i s

/-- The host's word, placed where the next step fetches, is what that step runs, from every state (the
model's own interface, log 9). -/
def Obligations.PlacedWordRunsNext : Prop :=
  ∀ (s : State) (nbits w : Nat) (i : Instr), decodeTableWord nbits w = some i →
    step (s.withFetchWord nbits w) = exec i (s.withFetchWord nbits w)

/-- The two termination tests, `pc >= N` first, change the status and nothing else
(41_fetch_decode_execute.md section 3; the order is decision D12 of spec/, log 17). -/
def Obligations.TerminationTestsChangeStatusOnly : Prop :=
  ∀ s : State, s.status = .running →
    (s.config.numInstrs ≤ s.pc → step s = .next { s with status := .completed }) ∧
    (s.pc < s.config.numInstrs → s.config.stepLimit ≤ s.stepCount →
      step s = .next { s with status := .stepLimit })

/-- A terminal state does not change, by one pass or by many (10_state.md sections 5 and 7: "Once terminal
it does not change until the next reset"; that a step of an ended machine answers the same state is the
model's choice, log 6). -/
def Obligations.TerminalStatesDoNotChange : Prop :=
  ∀ s : State, s.status ≠ .running → step s = .next s ∧ ∀ k, s.loop k = .next s

/-- Every state steps to a next state: no data, word or status ends in a fault or a refusal of the model
(60_exceptions.md sections 1 and 4: the machine's own faults are next states, log 5). -/
def Obligations.EveryStepAnswersANextState : Prop :=
  (∀ s : State, ∃ t, step s = .next t) ∧
  (∀ (i : Instr) (s : State), ∃ t, exec i s = .next t) ∧
  (∀ (k : Nat) (s : State), ∃ t, s.loop k = .next t)

/-- When a step faults, with which cause, and that it changes nothing but the status and the fault record
(60_exceptions.md sections 3 and 4; decisions D10 and D11 of spec/, log 14 and 5). Nothing is said of the
recorded operand of an IllegalOpcode, which is free (log 7). -/
def Obligations.FaultsArePreciseAndPrioritised : Prop :=
  ∀ s : State, s.status = .running → s.pc < s.config.numInstrs → s.stepCount < s.config.stepLimit →
    ∃ (t : State) (expected : FaultCause), step s = .next t ∧
      (match decode s.fetch with
        | .illegalOpcode _ => expected = .illegalOpcode
        | .record (.loadConst _) => expected = .none
        | .record (.readMem addr) =>
          expected = if s.config.memLen.val ≤ addr.toNat then .addressOutOfRange else .none
        | .record (.writeMem addr) =>
          expected = if s.config.memLen.val ≤ addr.toNat then .addressOutOfRange
            else if s.stack = [] then .stackUnderflow else .none
        | .record (.sgn addr) =>
          expected = if s.config.memLen.val ≤ addr.toNat then .addressOutOfRange else .none) ∧
      (expected = .none → t.status = .running ∧ t.fault = s.fault) ∧
      (expected ≠ .none →
        t = { s with status := .fault, fault := t.fault } ∧ t.fault.cause = expected ∧
        t.fault.step = s.stepCount ∧ t.fault.pc = s.pc ∧ t.fault.word = s.fetch.word ∧
        (expected ≠ .illegalOpcode → decode s.fetch = .record (.readMem t.fault.operand) ∨
          decode s.fetch = .record (.writeMem t.fault.operand) ∨
          decode s.fetch = .record (.sgn t.fault.operand)))

/-- The mnemonic of the faulting instruction is recovered from the fault word; for an IllegalOpcode there
is none (10_state.md section 5). -/
def Obligations.FaultWordNamesTheInstruction : Prop :=
  ∀ s t : State, s.status = .running → step s = .next t → t.status = .fault →
    (t.fault.cause = .illegalOpcode → t.fault.mnemonic = none) ∧
    (t.fault.cause ≠ .illegalOpcode →
      ∃ i, decode s.fetch = .record i ∧ t.fault.mnemonic = some i.mnemonic)

/-! ### Invariants -/

/-- Every step keeps the memory's canonical form, which reset's memory has (the model's representation,
log 2). -/
def Obligations.EveryStepKeepsMemoryCanonical : Prop :=
  (∀ (s t : State), s.mem.wf → step s = .next t → t.mem.wf) ∧
  (∀ c : RunConfig, (State.resetWith c).mem.wf) ∧ State.reset.mem.wf

/-- The state after reset is sound, whatever the run's arguments (10_state.md section 7). -/
def Obligations.ResetStateIsSound : Prop :=
  (∀ c : RunConfig, (State.resetWith c).Sound) ∧ State.reset.Sound

/-- Every step keeps the invariants of 41_fetch_decode_execute.md section 4 and 10_state.md section 6 (an
inference spec/ marks as its own): counters equal and bounded, depth bounded, the trace the decodings of
the instructions executed, every value in range, memory canonical, status and fault record fitting. -/
def Obligations.EveryStepKeepsTheStateSound : Prop :=
  ∀ s t : State, s.Sound → step s = .next t → t.Sound

/-- Program order is all there is: every step keeps the stack and every cell equal to what the trace gives
when replayed over a plain stack and a plain array, so a read gives the latest earlier write, or 0
(20_memory.md section 7), and at the start they are equal. -/
def Obligations.StackAndMemoryAreTheTraceReplayed : Prop :=
  (∀ s t : State, s.mem.wf → s.IsReplay → step s = .next t → t.IsReplay) ∧
  (∀ c : RunConfig, (State.resetWith c).IsReplay)

/-! ### Whole runs -/

/-- The loop ends: from every state, after `min(N, STEP_LIMIT) + 1` passes at most, in a terminal state, and
more passes change nothing; a run executes at most `min(N, STEP_LIMIT)` instructions
(41_fetch_decode_execute.md section 3, an inference spec/ marks as its own). -/
def Obligations.EveryRunEndsWithinItsBound : Prop :=
  (∀ s : State, ∃ t, s.loop s.config.passBound = .next t ∧ t.status ≠ .running ∧
    t.stepCount ≤ s.stepCount + min s.config.numInstrs s.config.stepLimit ∧
    ∀ k, s.config.passBound ≤ k → s.loop k = .next t) ∧
  (∀ (binary : List Byte) (memoryLength stepLimit : Int), 0 ≤ memoryLength → memoryLength ≤ 2048 →
    0 ≤ stepLimit → ∃ t, run binary memoryLength stepLimit = .next t ∧ t.status ≠ .running ∧
      t.config.prog = binary ∧ t.stepCount ≤ min t.config.numInstrs t.config.stepLimit)

/-- What a program must itself ensure: a run ends without a fault exactly when every instruction it can
reach has a legal opcode, an address below `MEM_LEN` and, for a WRITE_MEM, a push not yet popped
(70_reset_and_hazards.md section 2, an inference spec/ marks as its own). -/
def Obligations.RunIsFaultFreeExactlyWhenTheCheckPasses : Prop :=
  ∀ c : RunConfig, ∃ t, (State.resetWith c).loop c.passBound = .next t ∧
    (t.Safe ↔ c.runsClean = true)

/-- How a fault-free run ends: COMPLETED with `pc = N` if `N <= STEP_LIMIT`, else STEP_LIMIT with
`pc = step = STEP_LIMIT` (41_fetch_decode_execute.md sections 3 and 4; the case `N = STEP_LIMIT` is
decision D12 of spec/, log 17). -/
def Obligations.FaultFreeRunEndsCompletedOrAtTheLimit : Prop :=
  ∀ (c : RunConfig) (t : State), (State.resetWith c).loop c.passBound = .next t → t.Safe →
    (c.numInstrs ≤ c.stepLimit → t.status = .completed ∧ t.pc = c.numInstrs) ∧
    (c.stepLimit < c.numInstrs → t.status = .stepLimit ∧ t.pc = c.stepLimit) ∧
    t.stepCount = t.pc ∧ t.trace.length = t.pc

/-- What lies beyond the step limit is neither fetched nor decoded: two runs whose binaries agree on the
first `STEP_LIMIT` instructions and are longer than that end in the same state but for the binary itself
(41_fetch_decode_execute.md section 4, an inference spec/ marks as its own). -/
def Obligations.InstructionsBeyondTheLimitHaveNoEffect : Prop :=
  ∀ c d : RunConfig, d.memLen = c.memLen → d.stepLimit = c.stepLimit → c.stepLimit < c.numInstrs →
    d.stepLimit < d.numInstrs → (∀ i, i < c.stepLimit → d.fetch i = c.fetch i) →
    ∃ t, (State.resetWith c).loop c.passBound = .next t ∧
      (State.resetWith d).loop d.passBound = .next { t with config := d }

/-- A short last record is executed like a full one: writing its missing zero bytes out changes nothing in
the run but the binary (41_fetch_decode_execute.md section 2, an inference spec/ marks as its own). -/
def Obligations.WrittenOutPaddingChangesNothing : Prop :=
  ∀ c d : RunConfig, d.memLen = c.memLen → d.stepLimit = c.stepLimit →
    d.prog = c.prog ++ List.replicate ((3 - c.prog.length % 3) % 3) 0 →
    d.numInstrs = c.numInstrs ∧ (∀ i, d.fetch i = c.fetch i) ∧
    ∃ t, (State.resetWith c).loop c.passBound = .next t ∧
      (State.resetWith d).loop d.passBound = .next { t with config := d }

/-! ### Values, the host -/

/-- A two's-complement cell of 15 bits or more holds every value of a sound state without loss (10_state.md
section 3, decision D4 of spec/, log 1). -/
def Obligations.FifteenBitCellsLoseNothing : Prop :=
  ∀ (s : State) (w : Nat), s.Sound → 15 ≤ w →
    (∀ v ∈ s.stack, (BitVec.ofInt w v).toInt = v) ∧
    (∀ a, (BitVec.ofInt w (s.memRead a)).toInt = s.memRead a)

/-- The sign of a two's-complement cell: 0 if all bits are 0, -1 if the top bit is 1, otherwise 1
(42_stack_memory_instructions.md section 4). -/
def Obligations.SignReadsTheTopBit : Prop :=
  ∀ (w : Nat) (x : BitVec w),
    signOf x.toInt = if x = 0 then 0 else if x.msb = true then -1 else 1

/-- What the host reads (41_fetch_decode_execute.md section 3, 70_reset_and_hazards.md section 3): nothing
while the run is in progress; afterwards the result of table T137, the status, the fault record exactly
after a FAULT, the trace and every cell that exists. That trace and cells are readable after a FAULT too,
and the stack then, is decision D18 of spec/ (log 26); the stops by name, during the run and on a cell that
does not exist, are the model's choice (log 20). -/
def Obligations.HostReadsOnlyAfterTheRun : Prop :=
  ∀ s : State,
    (s.status = .running → s.result = none ∧ s.hostView = .refused .hostMoveDuringRun ∧
      ∀ a, s.hostReadCell a = .refused .hostMoveDuringRun) ∧
    (s.status = .completed ∨ s.status = .stepLimit → s.result = some (.normal s.trace s.dump)) ∧
    (s.status = .fault → s.result = some (.fatal s.fault)) ∧
    (s.status ≠ .running → ∃ view, s.hostView = .next view ∧ view.status = s.status ∧
      view.trace = s.trace ∧ view.memory.length = s.config.memLen.val ∧
      (∀ a (h : a < view.memory.length), view.memory[a] = s.memRead a) ∧
      (s.status = .fault → view.fault = some s.fault ∧ view.stack = some s.stack) ∧
      (s.status ≠ .fault → view.fault = none ∧ view.stack = none)) ∧
    (s.status ≠ .running → ∀ a,
      (∀ h : a < s.dump.length, s.hostReadCell a = .next s.dump[a]) ∧
      (s.dump.length ≤ a → s.hostReadCell a = .fault (.noSuchCell a)))

/-- Starting a run: with good arguments every piece of state has the reset value that spec/ gives it and
the configuration is the arguments; bad arguments are refused by name (10_state.md section 7,
70_reset_and_hazards.md sections 1 and 3; the admitted ranges are decisions D2 and D22 of spec/, log
13). -/
def Obligations.StartResetsEverythingOrRefuses : Prop :=
  (∀ (binary : List Byte) (memoryLength stepLimit : Int), 0 ≤ memoryLength → memoryLength ≤ 2048 →
    0 ≤ stepLimit → ∃ s, State.start binary memoryLength stepLimit = .next s ∧
      s.pc = 0 ∧ s.stepCount = 0 ∧ s.stack = [] ∧ (∀ a, s.memRead a = 0) ∧ s.halted = false ∧
      s.status = .running ∧ s.fault.cause = .none ∧ s.trace = [] ∧ s.config.prog = binary ∧
      (s.config.memLen.val : Int) = memoryLength ∧ (s.config.stepLimit : Int) = stepLimit) ∧
  (∀ (binary : List Byte) (memoryLength stepLimit : Int), memoryLength < 0 ∨ 2048 < memoryLength →
    State.start binary memoryLength stepLimit = .refused (.memoryLengthOutOfRange memoryLength)) ∧
  (∀ (binary : List Byte) (memoryLength stepLimit : Int), 0 ≤ memoryLength → memoryLength ≤ 2048 →
    stepLimit < 0 →
    State.start binary memoryLength stepLimit = .refused (.stepLimitNegative stepLimit)) ∧
  State.reset.config.memLen.val = 2048 ∧ State.reset.config.stepLimit = 1000

/-- The trace stream pulses exactly when a step completes, with the record that step decoded, and the trace
grows by what is pulsed and by nothing else (41_fetch_decode_execute.md section 6, 10_state.md section 5;
the trace's content is decision D14 of spec/, the port D16, log 16 and 22). -/
def Obligations.TraceStreamPulsesOncePerCompletedStep : Prop :=
  ∀ s t : State, step s = .next t →
    (∀ i, tracePulse s t = some i ↔
      t.pc = s.pc + 1 ∧ decode s.fetch = .record i ∧ t.trace = s.trace ++ [i]) ∧
    (tracePulse s t = none → t.trace = s.trace ∧ t.pc = s.pc)

/-- The sequencer's, the program store's and the stack's outputs show the state, with the 2-bit codes of
spec/ for status and cause (41_fetch_decode_execute.md section 6, 42_stack_memory_instructions.md section 9,
10_state.md section 5, tables T29 and T30; the codes are decisions D8 and D9 of spec/, the ports D16, log
15 and 22). -/
def Obligations.PortsShowTheState : Prop :=
  ∀ s : State,
    (s.sequencerPort.status = 0 ↔ s.status = .running) ∧
    (s.sequencerPort.status = 1 ↔ s.status = .completed) ∧
    (s.sequencerPort.status = 2 ↔ s.status = .stepLimit) ∧
    (s.sequencerPort.status = 3 ↔ s.status = .fault) ∧
    (s.sequencerPort.faultCause = 0 ↔ s.fault.cause = .none) ∧
    (s.sequencerPort.faultCause = 1 ↔ s.fault.cause = .illegalOpcode) ∧
    (s.sequencerPort.faultCause = 2 ↔ s.fault.cause = .addressOutOfRange) ∧
    (s.sequencerPort.faultCause = 3 ↔ s.fault.cause = .stackUnderflow) ∧
    s.sequencerPort.pc = s.pc ∧ s.sequencerPort.step = s.stepCount ∧
    s.sequencerPort.faultStep = s.fault.step ∧ s.sequencerPort.faultPc = s.fault.pc ∧
    s.sequencerPort.faultWord = s.fault.word ∧ s.sequencerPort.faultOperand = s.fault.operand ∧
    s.sequencerPort.halted = s.halted ∧
    (∀ k, ((s.config.programStorePort k).imemValid = true ↔ k < s.config.prog.length) ∧
      (∀ h : k < s.config.prog.length, (s.config.programStorePort k).imemData = s.config.prog[k]) ∧
      ((s.config.programStorePort k).imemValid = false →
        (s.config.programStorePort k).imemData = 0)) ∧
    (s.stackEmpty = true ↔ s.stack = [])

/-- The stack and memory ports (42_stack_memory_instructions.md sections 2, 3 and 9, decision D16 of spec/,
log 22): which ports each instruction drives and with what, never both memory ports, exactly one of push
and pop where it has its effect and none where it faults (decision D11, log 5); `wr_en` alone decides
whether the write port writes; and driving the ports is all that an instruction and a step do to the stack
and to data memory. -/
def Obligations.PortsCarryEveryEffectOnStackAndMemory : Prop :=
  (∀ (s : State) (i : Instr),
    (s.portsOf i = .idle ∧ ∃ r, exec i s = .next (s.raise r)) ∨
    (exec i s = .next ((s.drive (s.portsOf i)).retire i) ∧
      (s.portsOf i).push.isSome = !(s.portsOf i).pop.isSome ∧
      ((s.portsOf i).read = none ∨ (s.portsOf i).wrEn = false) ∧
      (match i with
        | .loadConst v => s.portsOf i = { PortUse.idle with push := some v }
        | .readMem addr => addr.toNat < s.config.memLen.val ∧
          s.portsOf i = { PortUse.idle with
            read := some ⟨addr, s.memRead addr.toNat⟩, push := some (s.memRead addr.toNat) }
        | .writeMem addr => addr.toNat < s.config.memLen.val ∧ ∃ v, s.stack.head? = some v ∧
          s.portsOf i = { PortUse.idle with pop := some v, write := some ⟨addr, v⟩ }
        | .sgn addr => addr.toNat < s.config.memLen.val ∧
          s.portsOf i = { PortUse.idle with
            read := some ⟨addr, s.memRead addr.toNat⟩,
            push := some (Int.sign (s.memRead addr.toNat)) }))) ∧
  (∀ (s : State) (a : Address) (v : Int), s.writePort a v false = s ∧
    s.writePort a v true = s.memWrite a.toNat v) ∧
  (∀ (s : State) (u : PortUse), u.wrEn = false → (s.drive u).mem = s.mem) ∧
  (∀ s t : State, step s = .next t →
    t.stack = (s.drive s.stepPorts).stack ∧ t.mem = (s.drive s.stepPorts).mem)
end

