-- ==== Sys2Proof/Laws/Codec.lean ====
section
/-!
SUPPORT. The small lemmas of the codec: the range checks as inequalities, the opcode map, the fields of
packed bytes, and what a decoding is. Proofs about `encode` and `decode` cite these.
-/

namespace Sys2Proof

theorem immediateInRange_iff (v : Int) : immediateInRange v = true ↔ -16384 ≤ v ∧ v ≤ 16383 := by
  simp [immediateInRange]

theorem addressInRange_iff (v : Int) : addressInRange v = true ↔ 0 ≤ v ∧ v ≤ 2047 := by
  simp [addressInRange]

/-- The opcode map inverts `Opcode(m)` (R88). -/
@[simp] theorem mnemonicOfOpcode_opcode (m : Mnemonic) : mnemonicOfOpcode m.opcode = some m := by
  cases m <;> decide

/-- No mnemonic exactly for the twelve illegal nibbles (R89). -/
theorem mnemonicOfOpcode_eq_none_iff (op : BitVec 4) :
    mnemonicOfOpcode op = none ↔ op ∉ [(14 : BitVec 4), 11, 7, 4] := by
  revert op
  decide

/-- The value of two fields side by side. -/
theorem toNat_append {n m : Nat} (x : BitVec n) (y : BitVec m) :
    (x ++ y).toNat = x.toNat * 2 ^ m + y.toNat := by
  rw [BitVec.toNat_append, Nat.shiftLeft_eq, Nat.mul_comm, Nat.two_pow_add_eq_or_of_lt y.isLt]

theorem InstrBytes_ext {b c : InstrBytes} (h0 : b.b0 = c.b0) (h1 : b.b1 = c.b1) (h2 : b.b2 = c.b2) :
    b = c := by
  cases b
  cases c
  simp_all

/-! ### Fields in numbers -/

theorem InstrBytes.toNat_opcode (b : InstrBytes) : b.opcode.toNat = b.b0.toNat % 16 := by
  simp [InstrBytes.opcode]

theorem InstrBytes.toNat_addressField (b : InstrBytes) :
    b.addressField.toNat = b.b0.toNat / 16 + 16 * b.b1.toNat := by
  simp only [InstrBytes.addressField, toNat_append, BitVec.extractLsb'_toNat,
    Nat.shiftRight_eq_div_pow]
  have h0 := b.b0.isLt
  omega

theorem InstrBytes.toNat_immediateField (b : InstrBytes) :
    b.immediateField.toNat =
      b.b0.toNat / 16 + 16 * b.b1.toNat + 4096 * (b.b2.toNat % 8) := by
  simp only [InstrBytes.immediateField, toNat_append, BitVec.extractLsb'_toNat,
    Nat.shiftRight_eq_div_pow]
  have h0 := b.b0.isLt
  omega

theorem InstrBytes.toNat_word (b : InstrBytes) :
    b.word.toNat = b.b0.toNat + 256 * b.b1.toNat + 65536 * b.b2.toNat := by
  simp only [InstrBytes.word, toNat_append]
  omega

/-! ### Packed bytes in numbers -/

theorem toNat_b0_pack (m : Mnemonic) (f : BitVec 15) :
    (pack m f).b0.toNat = m.opcode.toNat + 16 * (f.toNat % 16) := by
  simp only [pack, toNat_append, BitVec.extractLsb'_toNat]
  omega

theorem toNat_b1_pack (m : Mnemonic) (f : BitVec 15) : (pack m f).b1.toNat = f.toNat / 16 % 256 := by
  simp only [pack, BitVec.extractLsb'_toNat, Nat.shiftRight_eq_div_pow]

theorem toNat_b2_pack_loadConst (f : BitVec 15) :
    (pack .loadConst f).b2.toNat = f.toNat / 4096 % 8 := by
  simp only [pack, BitVec.toNat_setWidth, BitVec.extractLsb'_toNat, Nat.shiftRight_eq_div_pow]
  omega

theorem b2_pack_of_address (m : Mnemonic) (hm : m ≠ .loadConst) (f : BitVec 15) :
    (pack m f).b2 = 0 := by
  cases m <;> simp_all [pack]

/-- The opcode of packed bytes is the mnemonic's. -/
@[simp] theorem opcode_pack (m : Mnemonic) (f : BitVec 15) : (pack m f).opcode = m.opcode := by
  apply BitVec.eq_of_toNat_eq
  rw [InstrBytes.toNat_opcode, toNat_b0_pack]
  have := m.opcode.isLt
  omega

/-- The immediate field of packed bytes is the field packed. -/
@[simp] theorem immediateField_pack (f : BitVec 15) : (pack .loadConst f).immediateField = f := by
  apply BitVec.eq_of_toNat_eq
  rw [InstrBytes.toNat_immediateField, toNat_b0_pack, toNat_b1_pack, toNat_b2_pack_loadConst]
  have := f.isLt
  have := Mnemonic.loadConst.opcode.isLt
  omega

/-- The address field of packed bytes is the low twelve bits of the field packed. -/
@[simp] theorem addressField_pack (m : Mnemonic) (f : BitVec 15) :
    (pack m f).addressField = f.setWidth 12 := by
  apply BitVec.eq_of_toNat_eq
  rw [InstrBytes.toNat_addressField, toNat_b0_pack, toNat_b1_pack, BitVec.toNat_setWidth]
  have := f.isLt
  have := m.opcode.isLt
  omega

/-! ### What the two directions answer -/

/-- `encode` answers for valid records only, with the packed bytes (R110, R111). -/
theorem encode_eq_some {i : Instr} {b : InstrBytes} (h : encode i = some b) :
    i.wellFormed = true ∧ b = pack i.mnemonic i.operandField := by
  unfold encode at h
  split at h
  · simp_all
  · simp at h

/-- What a decoded record is (R114): its mnemonic from the opcode, its operand from the format's field. -/
theorem decode_eq_record {b : InstrBytes} {i : Instr} (h : decode b = .record i) :
    mnemonicOfOpcode b.opcode = some i.mnemonic ∧
    (i.mnemonic = .loadConst → i = .loadConst (signRule b.immediateField)) ∧
    (i.mnemonic ≠ .loadConst → i.operand = b.addressField.toNat) := by
  unfold decode at h
  split at h <;> simp at h <;> subst h <;> simp_all [Instr.mnemonic, Instr.operand]

/-- An IllegalOpcode answer names the nibble, which selects no mnemonic. -/
theorem decode_eq_illegalOpcode {b : InstrBytes} {op : BitVec 4} (h : decode b = .illegalOpcode op) :
    op = b.opcode ∧ mnemonicOfOpcode b.opcode = none := by
  unfold decode at h
  split at h <;> simp at h
  exact ⟨h.symm, by assumption⟩

end Sys2Proof
end

