-- ==== Sys2Proof/Laws/Memory.lean ====
section
/-!
SUPPORT. The laws of data memory: a read after a write, the canonical form, and that memories in canonical
form which read alike are equal.
-/

namespace Sys2Proof.Machine

@[simp] theorem Memory.read_nil (a : Nat) : Memory.read [] a = unwrittenCell := rfl

/-- The list of an empty memory is canonical, so reset's memory is. -/
theorem Memory.wf_nil : Memory.wf [] := by decide

/-- An address that no entry has reads as a cell nothing has written. -/
theorem Memory.read_eq_unwritten (m : Memory) (a : Nat) (h : ∀ p ∈ m, p.1 ≠ a) :
    Memory.read m a = unwrittenCell := by
  induction m with
  | nil => rfl
  | cons p m ih =>
    have hp : p.1 ≠ a := h p (by simp)
    simpa [Memory.read, hp] using ih fun q hq => h q (by simp [hq])

/-- Nothing below the first address of a rising list is listed. -/
theorem Memory.read_below_head (k : Nat) (x : Int) (m : Memory) (a : Nat)
    (h : Memory.wf ((k, x) :: m)) (ha : a < k) : Memory.read ((k, x) :: m) a = unwrittenCell := by
  apply Memory.read_eq_unwritten
  intro p hp
  rcases List.mem_cons.mp hp with rfl | hp
  · simp; omega
  · have := (List.pairwise_cons.mp h.1).1 p hp
    simp at this
    omega

theorem Memory.wf_tail {p : Nat × Int} {m : Memory} (h : Memory.wf (p :: m)) : Memory.wf m :=
  ⟨(List.pairwise_cons.mp h.1).2, fun q hq => h.2 q (by simp [hq])⟩

/-- Entries of a memory after a write: the one written, or one that was there. -/
theorem Memory.mem_write {m : Memory} {a : Nat} {v : Int} {p : Nat × Int}
    (h : p ∈ Memory.write m a v) : p = (a, v) ∧ v ≠ unwrittenCell ∨ p ∈ m := by
  induction m with
  | nil =>
    simp only [Memory.write] at h
    split at h
    · simp at h
    · exact .inl ⟨List.mem_singleton.mp h, by assumption⟩
  | cons q m ih =>
    obtain ⟨k, x⟩ := q
    simp only [Memory.write] at h
    split at h
    · split at h
      · exact .inr h
      · rcases List.mem_cons.mp h with h | h
        · exact .inl ⟨h, by assumption⟩
        · exact .inr h
    · split at h
      · split at h
        · exact .inr (List.mem_cons_of_mem _ h)
        · rcases List.mem_cons.mp h with h | h
          · exact .inl ⟨h, by assumption⟩
          · exact .inr (List.mem_cons_of_mem _ h)
      · rcases List.mem_cons.mp h with h | h
        · simp [h]
        · rcases ih h with h | h <;> simp [h]

/-- A write keeps the canonical form. -/
theorem Memory.write_wf {m : Memory} (h : m.wf) (a : Nat) (v : Int) : (m.write a v).wf := by
  induction m with
  | nil =>
    by_cases hv : v = unwrittenCell
    · simp [Memory.write, hv, Memory.wf]
    · simp only [Memory.write, hv, if_false]
      exact ⟨by simp, by simpa [unwrittenCell] using hv⟩
  | cons q m ih =>
    obtain ⟨k, x⟩ := q
    have hk := List.pairwise_cons.mp h.1
    have htail := Memory.wf_tail h
    simp only [Memory.write]
    by_cases hak : a < k
    · by_cases hv : v = unwrittenCell
      · simpa [hak, hv] using h
      · simp only [hak, hv, if_true, if_false]
        refine ⟨List.pairwise_cons.mpr ⟨?_, h.1⟩, ?_⟩
        · intro p hp
          rcases List.mem_cons.mp hp with rfl | hp
          · exact hak
          · exact Nat.lt_trans hak (hk.1 p hp)
        · intro p hp
          rcases List.mem_cons.mp hp with rfl | hp
          · simpa [unwrittenCell] using hv
          · exact h.2 p hp
    · by_cases hek : a = k
      · subst hek
        by_cases hv : v = unwrittenCell
        · simpa [hv] using htail
        · simp only [hv, Nat.lt_irrefl, if_true, if_false]
          refine ⟨List.pairwise_cons.mpr ⟨hk.1, hk.2⟩, ?_⟩
          intro p hp
          rcases List.mem_cons.mp hp with rfl | hp
          · simpa [unwrittenCell] using hv
          · exact htail.2 p hp
      · simp only [hak, hek, if_false]
        refine ⟨List.pairwise_cons.mpr ⟨?_, (ih htail).1⟩, ?_⟩
        · intro p hp
          rcases Memory.mem_write hp with ⟨rfl, _⟩ | hp
          · simp only; omega
          · exact hk.1 p hp
        · intro p hp
          rcases List.mem_cons.mp hp with rfl | hp
          · exact h.2 (k, x) (by simp)
          · exact (ih htail).2 p hp

/-- A read of the cell just written gives the value written. -/
@[simp] theorem Memory.read_write_same {m : Memory} (h : m.wf) (a : Nat) (v : Int) :
    (m.write a v).read a = v := by
  induction m with
  | nil => by_cases hv : v = unwrittenCell <;> simp [Memory.write, Memory.read, hv]
  | cons q m ih =>
    obtain ⟨k, x⟩ := q
    by_cases hv : v = unwrittenCell
    · simp only [Memory.write, hv, if_true]
      split_ifs with hak hek
      · exact Memory.read_below_head k x m a h hak
      · apply Memory.read_eq_unwritten
        intro p hp
        have := (List.pairwise_cons.mp h.1).1 p hp
        simp at this
        omega
      · have hka : ¬ k = a := fun e => hek e.symm
        rw [hv] at ih
        simpa [Memory.read, hka] using ih (Memory.wf_tail h)
    · simp only [Memory.write, hv, if_false]
      split_ifs with hak hek
      · simp [Memory.read]
      · simp [Memory.read]
      · have hka : ¬ k = a := fun e => hek e.symm
        simpa [Memory.read, hka] using ih (Memory.wf_tail h)

/-- A write leaves every other cell alone. -/
@[simp] theorem Memory.read_write_other (m : Memory) {a b : Nat} (v : Int) (hab : b ≠ a) :
    (m.write a v).read b = m.read b := by
  have hba : ¬ a = b := fun e => hab e.symm
  induction m with
  | nil => by_cases hv : v = unwrittenCell <;> simp [Memory.write, Memory.read, hv, hba]
  | cons q m ih =>
    obtain ⟨k, x⟩ := q
    simp only [Memory.write]
    split_ifs with h1 h2 h3 h4
    · rfl
    · simp [Memory.read, hba]
    · have hkb : ¬ k = b := by omega
      simp [Memory.read, hkb]
    · subst h3
      simp [Memory.read, hba]
    · simp [Memory.read, ih]

/-- A read gives an entry's value, or 0. -/
theorem Memory.read_cases (m : Memory) (a : Nat) :
    m.read a = unwrittenCell ∨ (a, m.read a) ∈ m := by
  induction m with
  | nil => simp
  | cons q m ih =>
    obtain ⟨k, x⟩ := q
    by_cases hk : k = a
    · simp [Memory.read, hk]
    · rcases ih with h | h <;> simp [Memory.read, hk, h]

/-- In canonical form every entry is what its address reads as. -/
theorem Memory.read_of_mem {m : Memory} (h : m.wf) {p : Nat × Int} (hp : p ∈ m) :
    m.read p.1 = p.2 := by
  induction m with
  | nil => simp at hp
  | cons q m ih =>
    obtain ⟨k, x⟩ := q
    rcases List.mem_cons.mp hp with rfl | hp
    · simp [Memory.read]
    · have := (List.pairwise_cons.mp h.1).1 p hp
      have hk : ¬ k = p.1 := by simp at this; omega
      simpa [Memory.read, hk] using ih (Memory.wf_tail h) hp

end Sys2Proof.Machine
end

