-- ==== Sys2Proof/Laws/State.lean ====
section
/-!
SUPPORT. One lemma per field per update of State, so that no later proof unfolds a record update.
-/

namespace Sys2Proof.Machine

/-! ### `State.push` -/

@[simp] theorem State.push_pc (s : State) (v : Int) :
    (s.push v).pc = s.pc := rfl
@[simp] theorem State.push_stepCount (s : State) (v : Int) :
    (s.push v).stepCount = s.stepCount := rfl
@[simp] theorem State.push_stack (s : State) (v : Int) :
    (s.push v).stack = v :: s.stack := rfl
@[simp] theorem State.push_mem (s : State) (v : Int) :
    (s.push v).mem = s.mem := rfl
@[simp] theorem State.push_halted (s : State) (v : Int) :
    (s.push v).halted = s.halted := rfl
@[simp] theorem State.push_status (s : State) (v : Int) :
    (s.push v).status = s.status := rfl
@[simp] theorem State.push_fault (s : State) (v : Int) :
    (s.push v).fault = s.fault := rfl
@[simp] theorem State.push_trace (s : State) (v : Int) :
    (s.push v).trace = s.trace := rfl
@[simp] theorem State.push_config (s : State) (v : Int) :
    (s.push v).config = s.config := rfl

/-! ### `State.memWrite` -/

@[simp] theorem State.memWrite_pc (s : State) (a : Nat) (v : Int) :
    (s.memWrite a v).pc = s.pc := rfl
@[simp] theorem State.memWrite_stepCount (s : State) (a : Nat) (v : Int) :
    (s.memWrite a v).stepCount = s.stepCount := rfl
@[simp] theorem State.memWrite_stack (s : State) (a : Nat) (v : Int) :
    (s.memWrite a v).stack = s.stack := rfl
@[simp] theorem State.memWrite_mem (s : State) (a : Nat) (v : Int) :
    (s.memWrite a v).mem = s.mem.write a v := rfl
@[simp] theorem State.memWrite_halted (s : State) (a : Nat) (v : Int) :
    (s.memWrite a v).halted = s.halted := rfl
@[simp] theorem State.memWrite_status (s : State) (a : Nat) (v : Int) :
    (s.memWrite a v).status = s.status := rfl
@[simp] theorem State.memWrite_fault (s : State) (a : Nat) (v : Int) :
    (s.memWrite a v).fault = s.fault := rfl
@[simp] theorem State.memWrite_trace (s : State) (a : Nat) (v : Int) :
    (s.memWrite a v).trace = s.trace := rfl
@[simp] theorem State.memWrite_config (s : State) (a : Nat) (v : Int) :
    (s.memWrite a v).config = s.config := rfl

/-! ### `State.raise` -/

@[simp] theorem State.raise_pc (s : State) (r : Raised) :
    (s.raise r).pc = s.pc := rfl
@[simp] theorem State.raise_stepCount (s : State) (r : Raised) :
    (s.raise r).stepCount = s.stepCount := rfl
@[simp] theorem State.raise_stack (s : State) (r : Raised) :
    (s.raise r).stack = s.stack := rfl
@[simp] theorem State.raise_mem (s : State) (r : Raised) :
    (s.raise r).mem = s.mem := rfl
@[simp] theorem State.raise_halted (s : State) (r : Raised) :
    (s.raise r).halted = s.halted := rfl
@[simp] theorem State.raise_status (s : State) (r : Raised) :
    (s.raise r).status = .fault := rfl
@[simp] theorem State.raise_fault (s : State) (r : Raised) :
    (s.raise r).fault = s.faultRecord r := rfl
@[simp] theorem State.raise_trace (s : State) (r : Raised) :
    (s.raise r).trace = s.trace := rfl
@[simp] theorem State.raise_config (s : State) (r : Raised) :
    (s.raise r).config = s.config := rfl

/-! ### `State.retire` -/

@[simp] theorem State.retire_pc (s : State) (i : Instr) :
    (s.retire i).pc = s.pc + 1 := rfl
@[simp] theorem State.retire_stepCount (s : State) (i : Instr) :
    (s.retire i).stepCount = s.stepCount + 1 := rfl
@[simp] theorem State.retire_stack (s : State) (i : Instr) :
    (s.retire i).stack = s.stack := rfl
@[simp] theorem State.retire_mem (s : State) (i : Instr) :
    (s.retire i).mem = s.mem := rfl
@[simp] theorem State.retire_halted (s : State) (i : Instr) :
    (s.retire i).halted = s.halted := rfl
@[simp] theorem State.retire_status (s : State) (i : Instr) :
    (s.retire i).status = s.status := rfl
@[simp] theorem State.retire_fault (s : State) (i : Instr) :
    (s.retire i).fault = s.fault := rfl
@[simp] theorem State.retire_trace (s : State) (i : Instr) :
    (s.retire i).trace = s.trace ++ [i] := rfl
@[simp] theorem State.retire_config (s : State) (i : Instr) :
    (s.retire i).config = s.config := rfl

/-! ### `State.resetWith` -/

@[simp] theorem State.resetWith_pc (c : RunConfig) : (State.resetWith c).pc = 0 := rfl
@[simp] theorem State.resetWith_stepCount (c : RunConfig) : (State.resetWith c).stepCount = 0 := rfl
@[simp] theorem State.resetWith_stack (c : RunConfig) : (State.resetWith c).stack = [] := rfl
@[simp] theorem State.resetWith_mem (c : RunConfig) : (State.resetWith c).mem = [] := rfl
@[simp] theorem State.resetWith_halted (c : RunConfig) : (State.resetWith c).halted = false := rfl
@[simp] theorem State.resetWith_status (c : RunConfig) : (State.resetWith c).status = .running := rfl
@[simp] theorem State.resetWith_fault (c : RunConfig) : (State.resetWith c).fault = .reset := rfl
@[simp] theorem State.resetWith_trace (c : RunConfig) : (State.resetWith c).trace = [] := rfl
@[simp] theorem State.resetWith_config (c : RunConfig) : (State.resetWith c).config = c := rfl

/-- Reset's memory is in canonical form. -/
theorem State.resetWith_mem_wf (c : RunConfig) : (State.resetWith c).mem.wf := by
  simp [Memory.wf]

/-! ### `State.withInstrBytes` -/

@[simp] theorem State.withInstrBytes_pc (s : State) (b : InstrBytes) :
    (s.withInstrBytes b).pc = s.pc := rfl
@[simp] theorem State.withInstrBytes_stepCount (s : State) (b : InstrBytes) :
    (s.withInstrBytes b).stepCount = s.stepCount := rfl
@[simp] theorem State.withInstrBytes_stack (s : State) (b : InstrBytes) :
    (s.withInstrBytes b).stack = s.stack := rfl
@[simp] theorem State.withInstrBytes_mem (s : State) (b : InstrBytes) :
    (s.withInstrBytes b).mem = s.mem := rfl
@[simp] theorem State.withInstrBytes_halted (s : State) (b : InstrBytes) :
    (s.withInstrBytes b).halted = s.halted := rfl
@[simp] theorem State.withInstrBytes_fault (s : State) (b : InstrBytes) :
    (s.withInstrBytes b).fault = s.fault := rfl
@[simp] theorem State.withInstrBytes_trace (s : State) (b : InstrBytes) :
    (s.withInstrBytes b).trace = s.trace := rfl
@[simp] theorem State.withInstrBytes_status (s : State) (b : InstrBytes) :
    (s.withInstrBytes b).status = .running := rfl
@[simp] theorem State.withInstrBytes_prog (s : State) (b : InstrBytes) :
    (s.withInstrBytes b).config.prog = placeInstr s.config.prog s.pc b := rfl
@[simp] theorem State.withInstrBytes_memLen (s : State) (b : InstrBytes) :
    (s.withInstrBytes b).config.memLen = s.config.memLen := rfl
@[simp] theorem State.withInstrBytes_stepLimit (s : State) (b : InstrBytes) :
    (s.withInstrBytes b).config.stepLimit = max s.config.stepLimit (s.stepCount + 1) := rfl

/-! ### The fault record -/

@[simp] theorem State.faultRecord_cause (s : State) (r : Raised) :
    (s.faultRecord r).cause = r.cause := rfl
@[simp] theorem State.faultRecord_step (s : State) (r : Raised) :
    (s.faultRecord r).step = s.stepCount := rfl
@[simp] theorem State.faultRecord_pc (s : State) (r : Raised) : (s.faultRecord r).pc = s.pc := rfl
@[simp] theorem State.faultRecord_word (s : State) (r : Raised) :
    (s.faultRecord r).word = s.fetch.word := rfl

/-- A raise records a cause, whichever it is. -/
@[simp] theorem Raised.cause_ne_none (r : Raised) : r.cause ≠ .none := by
  cases r <;> simp [Raised.cause]

end Sys2Proof.Machine
end

