-- ==== Sys2Proof/Laws/Ops.lean ====
section
/-!
SUPPORT. For each shared operation, one lemma that says once everything it can do; later proofs cite these
and do not unfold the operations.
-/

namespace Sys2Proof.Machine

/-- The sign test is the sign of the integers. -/
theorem signOf_eq_sign (v : Int) : signOf v = Int.sign v := by
  unfold signOf
  split_ifs with h1 h2
  · exact (Int.sign_eq_one_of_pos h1).symm
  · exact (Int.sign_eq_neg_one_of_neg h2).symm
  · have : v = 0 := by omega
    simp [this]

/-- The bounds check fails exactly at and above `MEM_LEN` (R55). -/
theorem State.addrOutOfRange_iff (s : State) (addr : Address) :
    s.addrOutOfRange addr = true ↔ s.config.memLen.val ≤ addr.toNat := by
  rw [State.addrOutOfRange, decide_eq_true_iff]
  rfl

/-- `pop` answers exactly when there is a top entry, and changes the stack only (R24). -/
theorem State.pop_eq_some_iff (s t : State) (v : Int) :
    s.pop = some (v, t) ↔ ∃ rest, s.stack = v :: rest ∧ t = { s with stack := rest } := by
  cases h : s.stack with
  | nil => simp [State.pop, h]
  | cons x rest =>
    simp only [State.pop, h, Option.some.injEq, Prod.mk.injEq, List.cons.injEq]
    constructor
    · rintro ⟨rfl, rfl⟩
      exact ⟨rest, ⟨rfl, rfl⟩, rfl⟩
    · rintro ⟨r, ⟨rfl, rfl⟩, rfl⟩
      exact ⟨rfl, rfl⟩

theorem State.pop_eq_none_iff (s : State) : s.pop = none ↔ s.stack = [] := by
  cases h : s.stack <;> simp [State.pop, h]

/-- Actions 3 and 4 answer a next state: the fault taken in the state the instruction began in, or the
instruction retired (R134, R181). -/
theorem State.finish_eq_next_iff (s t : State) (i : Instr) (r : Except Raised State) :
    s.finish i r = .next t ↔
      (∃ f, r = .error f ∧ t = s.raise f) ∨ (∃ u, r = .ok u ∧ t = u.retire i) := by
  cases r <;> simp [State.finish, eq_comm]

/-- What the sequencer's tests answer (R135). -/
theorem State.pass_cases (s : State) :
    (s.pass = .ended ∧ s.status ≠ .running) ∨
    (s.pass = .complete ∧ s.status = .running ∧ s.config.numInstrs ≤ s.pc) ∨
    (s.pass = .spend ∧ s.status = .running ∧ s.pc < s.config.numInstrs ∧
      s.config.stepLimit ≤ s.stepCount) ∨
    (s.pass = .step ∧ s.status = .running ∧ s.pc < s.config.numInstrs ∧
      s.stepCount < s.config.stepLimit) := by
  unfold State.pass
  cases hs : s.status with
  | running =>
    by_cases h1 : s.config.numInstrs ≤ s.pc
    · simp [State.atEnd, h1]
    · by_cases h2 : s.config.stepLimit ≤ s.stepCount
      · simp [State.atEnd, State.budgetSpent, h1, h2]; omega
      · simp [State.atEnd, State.budgetSpent, h1, h2]; omega
  | completed => simp
  | stepLimit => simp
  | fault => simp

/-- The bytes of a word, put together again, are the word (R7). -/
theorem InstrBytes_word_ofWord (w : InstrWord) : (InstrBytes.ofWord w).word = w := by
  apply BitVec.eq_of_getLsbD_eq
  intro k hk
  simp only [InstrBytes.word, InstrBytes.ofWord, BitVec.getLsbD_append, BitVec.getLsbD_extractLsb']
  by_cases h1 : k < 8
  · simp [h1]
  · by_cases h2 : k - 8 < 8
    · have e : 8 + (k - 8) = k := by omega
      simp [h1, h2, e]
    · have h3 : k - 8 - 8 < 8 := by omega
      have e : 16 + (k - 8 - 8) = k := by omega
      simp [h1, h2, h3, e]

end Sys2Proof.Machine
end

