-- ==== Sys2Proof/Laws/Exec.lean ====
section
/-!
SUPPORT. What an instruction and a step can do, said once (42_stack_memory_instructions.md R155,
41_fetch_decode_execute.md R134, R135). Invariants are derived from these.
-/

namespace Sys2Proof.Machine

/-- What an instruction's own pseudocode does where it raises nothing (table T155). -/
inductive Effect (s : State) : Instr → State → Prop where
  | loadConst (v : Int) : Effect s (.loadConst v) (s.push v)
  | readMem (addr : Address) (h : addr.toNat < s.config.memLen.val) :
      Effect s (.readMem addr) (s.push (s.memRead addr.toNat))
  | writeMem (addr : Address) (h : addr.toNat < s.config.memLen.val) (v : Int) (rest : List Int)
      (hs : s.stack = v :: rest) :
      Effect s (.writeMem addr) ({ s with stack := rest }.memWrite addr.toNat v)
  | sgn (addr : Address) (h : addr.toNat < s.config.memLen.val) :
      Effect s (.sgn addr) (s.push (Int.sign (s.memRead addr.toNat)))

/-- What an instruction can raise, and when (R172, R173, R176). -/
inductive Raises (s : State) : Instr → Raised → Prop where
  | readMem (addr : Address) (h : s.config.memLen.val ≤ addr.toNat) :
      Raises s (.readMem addr) (.addressOutOfRange addr)
  | writeMem (addr : Address) (h : s.config.memLen.val ≤ addr.toNat) :
      Raises s (.writeMem addr) (.addressOutOfRange addr)
  | underflow (addr : Address) (h : addr.toNat < s.config.memLen.val) (hs : s.stack = []) :
      Raises s (.writeMem addr) (.stackUnderflow addr)
  | sgn (addr : Address) (h : s.config.memLen.val ≤ addr.toNat) :
      Raises s (.sgn addr) (.addressOutOfRange addr)

/-- Every instruction answers a next state: its effect and action 4, or its fault taken with no effect at
all. -/
theorem exec_cases (i : Instr) (s : State) :
    (∃ u, Effect s i u ∧ exec i s = .next (u.retire i)) ∨
    (∃ r, Raises s i r ∧ exec i s = .next (s.raise r)) := by
  cases i with
  | loadConst v => exact .inl ⟨_, .loadConst v, rfl⟩
  | readMem addr =>
    by_cases h : s.config.memLen.val ≤ addr.toNat
    · refine .inr ⟨_, .readMem addr h, ?_⟩
      simp [exec, execReadMem, (s.addrOutOfRange_iff addr).mpr h, State.finish]
    · have h' : s.addrOutOfRange addr = false := by
        rw [← Bool.not_eq_true, s.addrOutOfRange_iff]; exact h
      refine .inl ⟨_, .readMem addr (by omega), ?_⟩
      simp [exec, execReadMem, h', State.finish, effectiveAddress]
  | writeMem addr =>
    by_cases h : s.config.memLen.val ≤ addr.toNat
    · refine .inr ⟨_, .writeMem addr h, ?_⟩
      simp [exec, execWriteMem, (s.addrOutOfRange_iff addr).mpr h, State.finish]
    · have h' : s.addrOutOfRange addr = false := by
        rw [← Bool.not_eq_true, s.addrOutOfRange_iff]; exact h
      cases hs : s.stack with
      | nil =>
        refine .inr ⟨_, .underflow addr (by omega) hs, ?_⟩
        simp [exec, execWriteMem, h', State.finish, State.pop, hs]
      | cons v rest =>
        refine .inl ⟨_, .writeMem addr (by omega) v rest hs, ?_⟩
        simp [exec, execWriteMem, h', State.finish, State.pop, hs, effectiveAddress]
  | sgn addr =>
    by_cases h : s.config.memLen.val ≤ addr.toNat
    · refine .inr ⟨_, .sgn addr h, ?_⟩
      simp [exec, execSgn, (s.addrOutOfRange_iff addr).mpr h, State.finish]
    · have h' : s.addrOutOfRange addr = false := by
        rw [← Bool.not_eq_true, s.addrOutOfRange_iff]; exact h
      refine .inl ⟨_, .sgn addr (by omega), ?_⟩
      simp [exec, execSgn, h', State.finish, effectiveAddress, signOf_eq_sign]

/-- What a step can do, guards included (R134, R135). -/
inductive Stepped (s : State) : State → Prop where
  | ended (h : s.status ≠ .running) : Stepped s s
  | completed (h : s.status = .running) (hpc : s.config.numInstrs ≤ s.pc) :
      Stepped s { s with status := .completed }
  | spent (h : s.status = .running) (hpc : s.pc < s.config.numInstrs)
      (hstep : s.config.stepLimit ≤ s.stepCount) : Stepped s { s with status := .stepLimit }
  | illegal (h : s.status = .running) (hpc : s.pc < s.config.numInstrs)
      (hstep : s.stepCount < s.config.stepLimit) (op : BitVec 4)
      (hd : decode s.fetch = .illegalOpcode op) : Stepped s (s.raise .illegalOpcode)
  | raised (h : s.status = .running) (hpc : s.pc < s.config.numInstrs)
      (hstep : s.stepCount < s.config.stepLimit) (i : Instr) (hd : decode s.fetch = .record i)
      (r : Raised) (hr : Raises s i r) : Stepped s (s.raise r)
  | retired (h : s.status = .running) (hpc : s.pc < s.config.numInstrs)
      (hstep : s.stepCount < s.config.stepLimit) (i : Instr) (hd : decode s.fetch = .record i)
      (u : State) (hu : Effect s i u) : Stepped s (u.retire i)

/-- Every step answers a next state, and it is one of those. -/
theorem step_spec (s : State) : ∃ t, step s = .next t ∧ Stepped s t := by
  rcases s.pass_cases with ⟨hp, h⟩ | ⟨hp, h, h1⟩ | ⟨hp, h, h1, h2⟩ | ⟨hp, h, h1, h2⟩
  · exact ⟨s, by simp [step, State.sequence, hp], .ended h⟩
  · exact ⟨_, by simp only [step, State.sequence, hp], .completed h h1⟩
  · exact ⟨_, by simp only [step, State.sequence, hp], .spent h h1 h2⟩
  · cases hd : decode s.fetch with
    | illegalOpcode op =>
      exact ⟨_, by simp only [step, State.sequence, hp, State.fetchDecodeExecute, hd],
        .illegal h h1 h2 op hd⟩
    | record i =>
      have he : step s = exec i s := by simp [step, State.sequence, hp, State.fetchDecodeExecute, hd]
      rcases exec_cases i s with ⟨u, hu, hx⟩ | ⟨r, hr, hx⟩
      · exact ⟨_, he.trans hx, .retired h h1 h2 i hd u hu⟩
      · exact ⟨_, he.trans hx, .raised h h1 h2 i hd r hr⟩

/-- Inversion of a step that answers a next state. -/
theorem step_cases {s t : State} (h : step s = .next t) : Stepped s t := by
  obtain ⟨u, hu, hs⟩ := step_spec s
  rw [h] at hu
  cases hu
  exact hs

end Sys2Proof.Machine
end

