-- ==== Sys2Proof/Laws/PerInstr.lean ====
section
/-!
SUPPORT. Statements made for every instruction as syntax, one lemma per constructor.
-/

namespace Sys2Proof.Laws.EncodingOpcode

/-- The encoding of a valid record carries its mnemonic's opcode, and the opcode alone gives the mnemonic
back (30_encoding.md R86, R88). -/
def Statement (i : Sys2Proof.Instr) : Prop :=
  i.wellFormed = true → ∃ b, Sys2Proof.encode i = some b ∧ b.opcode = i.mnemonic.opcode ∧
    Sys2Proof.mnemonicOfOpcode b.opcode = some i.mnemonic

/-- The shape of all four: from the packing alone. -/
theorem of_pack (i : Sys2Proof.Instr) : Statement i := fun h =>
  ⟨Sys2Proof.pack i.mnemonic i.operandField, by simp only [Sys2Proof.encode, h, if_true],
    by simp, by simp⟩

theorem loadConst (v : Int) : Statement (.loadConst v) := of_pack _
theorem readMem (addr : Sys2Proof.Address) : Statement (.readMem addr) := of_pack _
theorem writeMem (addr : Sys2Proof.Address) : Statement (.writeMem addr) := of_pack _
theorem sgn (addr : Sys2Proof.Address) : Statement (.sgn addr) := of_pack _

end Sys2Proof.Laws.EncodingOpcode
end

