-- ==== Sys2Proof/Laws/Ports.lean ====
section
/-!
SUPPORT. The small lemmas of the stack and memory ports (42_stack_memory_instructions.md R161), so that
later proofs do not unfold them.
-/

namespace Sys2Proof.Machine

/-! ### The write port -/

@[simp] theorem State.writePort_enabled (s : State) (a : Address) (v : Int) :
    s.writePort a v true = s.memWrite a.toNat v := rfl
@[simp] theorem State.writePort_disabled (s : State) (a : Address) (v : Int) :
    s.writePort a v false = s := rfl
@[simp] theorem State.readPort_eq (s : State) (a : Address) : s.readPort a = s.memRead a.toNat := rfl

/-! ### `PortUse` -/

@[simp] theorem PortUse.idle_push : PortUse.idle.push = none := rfl
@[simp] theorem PortUse.idle_pop : PortUse.idle.pop = none := rfl
@[simp] theorem PortUse.idle_read : PortUse.idle.read = none := rfl
@[simp] theorem PortUse.idle_write : PortUse.idle.write = none := rfl
@[simp] theorem PortUse.idle_wrEn : PortUse.idle.wrEn = false := rfl
@[simp] theorem State.drive_idle (s : State) : s.drive .idle = s := rfl

/-! ### The ports of an instruction -/

/-- An instruction that has its effect drives the ports of R161's list, at least one of them, and driving
them is that effect. -/
theorem Effect.ports {s u : State} {i : Instr} (h : Effect s i u) :
    s.drive (s.portsOf i) = u ∧ s.portsOf i ≠ .idle := by
  have inRange : ∀ addr : Address, addr.toNat < s.config.memLen.val →
      s.addrOutOfRange addr = false := by
    intro addr ha
    rw [← Bool.not_eq_true, s.addrOutOfRange_iff]
    omega
  cases h with
  | loadConst v => exact ⟨rfl, by simp [State.portsOf, PortUse.idle]⟩
  | readMem addr ha =>
    simp [State.portsOf, inRange addr ha, State.readAndPush, State.drive, State.afterPush,
      State.afterWrite, State.afterPop, PortUse.idle]
  | writeMem addr ha v rest hs =>
    simp [State.portsOf, inRange addr ha, State.pop, hs, State.drive, State.afterPush,
      State.afterWrite, State.afterPop, PortUse.idle]
  | sgn addr ha =>
    simp [State.portsOf, inRange addr ha, State.readAndPush, State.drive, State.afterPush,
      State.afterWrite, State.afterPop, PortUse.idle, signOf_eq_sign]

/-- An instruction that faults drives no port. -/
theorem Raises.ports {s : State} {i : Instr} {r : Raised} (h : Raises s i r) :
    s.portsOf i = .idle := by
  cases h with
  | readMem addr ha => simp [State.portsOf, (s.addrOutOfRange_iff addr).mpr ha]
  | writeMem addr ha => simp [State.portsOf, (s.addrOutOfRange_iff addr).mpr ha]
  | underflow addr ha hs =>
    have hp : s.pop = none := (State.pop_eq_none_iff s).mpr hs
    simp [State.portsOf, hp]
  | sgn addr ha => simp [State.portsOf, (s.addrOutOfRange_iff addr).mpr ha]

end Sys2Proof.Machine
end

