-- ==== Sys2Proof/Laws/Run.lean ====
section
/-!
SUPPORT. The loop of a run, packaged once: one pass at a time, and an induction over it.
-/

namespace Sys2Proof.Machine

@[simp] theorem State.loop_zero (s : State) : s.loop 0 = .next s := rfl

/-- A running state's loop is its step and then the loop of the state reached. -/
theorem State.loop_succ_of_running {s t : State} (k : Nat) (hr : s.status = .running)
    (h : step s = .next t) : s.loop (k + 1) = t.loop k := by
  simp [State.loop, hr, h]

/-- A relation that is reflexive and survives a step put before it holds from a state to what its loop
ends in. -/
theorem State.loop_induction (P : State → State → Prop) (refl : ∀ s, P s s)
    (step_trans : ∀ s t u, step s = .next t → P t u → P s u) :
    ∀ (k : Nat) (s t : State), s.loop k = .next t → P s t := by
  intro k
  induction k with
  | zero =>
    intro s t h
    cases h
    exact refl s
  | succ k ih =>
    intro s t h
    by_cases hr : s.status = .running
    · obtain ⟨u, hu, _⟩ := step_spec s
      rw [State.loop_succ_of_running k hr hu] at h
      exact step_trans s u t hu (ih u t h)
    · simp only [State.loop, hr, if_false] at h
      cases h
      exact refl s

/-- The host's read of the final state answers exactly when the run is over, and then what R207 and R137
list. -/
theorem State.hostView_eq_next_iff (s : State) (v : HostView) :
    s.hostView = .next v ↔ s.status ≠ .running ∧ v.status = s.status ∧
      v.fault = (if s.status = .fault then some s.fault else none) ∧ v.trace = s.trace ∧
      v.memory = s.dump ∧ v.stack = (if s.status = .fault then some s.stack else none) := by
  obtain ⟨status, fault, trace, memory, stack⟩ := v
  by_cases h : s.status = .running
  · simp [State.hostView, h]
  · simp only [State.hostView, h, if_false, Host.Outcome.next.injEq, HostView.mk.injEq, ne_eq,
      not_false_eq_true, true_and]
    simp only [eq_comm]

@[simp] theorem State.dump_length (s : State) : s.dump.length = s.config.memLen.val := by
  simp [State.dump]

end Sys2Proof.Machine
end

