-- ==== Sys2Proof/Tests/Slice0.lean ====
section
/-!
SUPPORT. The model's own tests: ill-formed records refused, words of every instruction decoded, one step of
each instruction, and for every statement with hypotheses a witness that meets them. Expected values are
those of 95_test_vectors.md (the vector's name stands beside them) or are worked from the encoding tables
by hand.
-/

namespace Sys2Proof.Tests

open Sys2Proof.Machine

/-! ### Helpers -/

/-- The state an outcome goes on with. -/
def after (o : Host.Outcome State Fault Refusal) : Option State :=
  match o with
  | .next s => some s
  | .fault _ => none
  | .refused _ => none

/-- The start of a run of `prog`. -/
def startOf (prog : List Byte) (memLen : Fin 2049 := 2048) (stepLimit : Nat := 1000) : State :=
  .resetWith { prog := prog, memLen := memLen, stepLimit := stepLimit }

/-- A start with this stack and data memory. -/
def withData (stack : List Int) (mem : Memory) (prog : List Byte := []) : State :=
  { startOf prog with stack := stack, mem := mem }

/-! ### WellFormed: the terms each check refuses (95_test_vectors.md section 2.1) -/

theorem test_immediate_above_range_refused : (Instr.loadConst 16384).wellFormed = false := by decide
theorem test_immediate_below_range_refused : (Instr.loadConst (-16385)).wellFormed = false := by decide
theorem test_readMem_2048_refused : (Instr.readMem 2048).wellFormed = false := by decide
theorem test_writeMem_2048_refused : (Instr.writeMem 2048).wellFormed = false := by decide
theorem test_sgn_4095_refused : (Instr.sgn 4095).wellFormed = false := by decide
theorem test_writeMem_negative_is_no_record : Instr.ofRecord .writeMem (-1) = none := by decide
theorem test_sgn_4096_is_no_record : Instr.ofRecord .sgn 4096 = none := by decide
theorem test_invalid_record_has_no_encoding : encode (.readMem 2048) = none := by decide
theorem test_undecodable_immediate : (Instr.loadConst 16384).decodable = false := by decide
theorem test_long_address_is_decodable : (Instr.readMem 4095).decodable = true := by decide

/-! ### Decode: words written out from tables T82 and T83 -/

/-- E6: opcode 1110, operand field 100 0000 0000 0000. -/
theorem test_decode_loadConst_min : decode ⟨0x0E, 0x00, 0x04⟩ = .record (.loadConst (-16384)) := by
  decide
/-- E20. -/
theorem test_decode_loadConst_negative :
    decode ⟨0x7E, 0xFC, 0x04⟩ = .record (.loadConst (-12345)) := by decide
/-- E36: opcode 1011, address 0101 0101 0101. -/
theorem test_decode_readMem : decode ⟨0x5B, 0x55, 0x00⟩ = .record (.readMem 1365) := by decide
/-- E37: opcode 0111, address 0010 1010 1010. -/
theorem test_decode_writeMem : decode ⟨0xA7, 0x2A, 0x00⟩ = .record (.writeMem 682) := by decide
/-- E35: opcode 0100, address 0100 0000 0000. -/
theorem test_decode_sgn : decode ⟨0x04, 0x40, 0x00⟩ = .record (.sgn 1024) := by decide
/-- W6: b2[3] is a reserved bit, not operand bit 15. -/
theorem test_decode_reserved_bit : decode ⟨0x0E, 0x00, 0x0C⟩ = .record (.loadConst (-16384)) := by
  decide
/-- W10: all twelve address bits. -/
theorem test_decode_longest_address : decode ⟨0xFB, 0xFF, 0x00⟩ = .record (.readMem 4095) := by decide
/-- W14 and W15: one bit of a legal opcode flipped. -/
theorem test_decode_illegal_neighbours :
    decode ⟨0x5F, 0x00, 0x00⟩ = .illegalOpcode 15 ∧ decode ⟨0x5A, 0x00, 0x00⟩ = .illegalOpcode 10 := by
  decide
/-- E21, the other way. -/
theorem test_encode_negative : encode (.loadConst (-300)) = some ⟨0x4E, 0xED, 0x07⟩ := by decide
/-- E34, the other way. -/
theorem test_encode_address : encode (.writeMem 1023) = some ⟨0xF7, 0x3F, 0x00⟩ := by decide
/-- The opcode table's numbering: E7 as one number. -/
theorem test_table_word : decodeTableWord 24 0x07FFFE = some (.loadConst (-1)) := by decide
/-- Bits above `nbits` are 0. -/
theorem test_table_word_short : decodeTableWord 8 0x07FFFE = some (.loadConst 15) := by decide

/-! ### One step of each instruction -/

/-- I2. -/
theorem test_loadConst_pushes_signed :
    (after (step (withData [7] [] [0xFE, 0xFF, 0x07]))).map (·.stack) = some [-1, 7] := by decide
/-- I7: an unwritten cell, the last one. -/
theorem test_readMem_unwritten :
    (after (step (withData [3] [] [0xFB, 0x7F, 0x00]))).map (·.stack) = some [0, 3] := by decide
/-- I8. -/
theorem test_readMem_copies :
    (after (step (withData [] [(0, -9)] [0x0B, 0x00, 0x00]))).map (fun s => (s.stack, s.mem)) =
      some ([-9], [(0, -9)]) := by decide
/-- I10: the top goes into the cell and overwrites it. -/
theorem test_writeMem_overwrites :
    (after (step (withData [2, 1] [(0, 8)] [0x07, 0x00, 0x00]))).map (fun s => (s.stack, s.mem)) =
      some ([1], [(0, 2)]) := by decide
/-- I12: a zero is written; the memory's form stays canonical. -/
theorem test_writeMem_zero :
    (after (step (withData [0] [(4, 6)] [0x47, 0x00, 0x00]))).map (fun s => (s.stack, s.mem)) =
      some ([], []) := by decide
/-- I14. -/
theorem test_sgn_negative :
    (after (step (withData [] [(100, -5)] [0x44, 0x06, 0x00]))).map (·.stack) = some [-1] := by decide
/-- I20: it does not pop. -/
theorem test_sgn_does_not_pop :
    (after (step (withData [9] [(100, 5)] [0x44, 0x06, 0x00]))).map (·.stack) = some [1, 9] := by
  decide
/-- X1: underflow at step 0, with the whole record. -/
theorem test_underflow_record :
    (after (step (startOf [0x07, 0x00, 0x00]))).map (fun s => (s.status, s.fault, s.pc)) =
      some (.fault, ⟨.stackUnderflow, 0, 0, 0x000007, 0⟩, 0) := by decide
/-- X6: the address is checked before the depth. -/
theorem test_address_checked_first :
    (after (step (startOf [0x07, 0x80, 0x00]))).map (fun s => (s.fault.cause, s.fault.operand)) =
      some (.addressOutOfRange, 2048) := by decide
/-- X9: with no memory every address faults. -/
theorem test_no_memory :
    (after (step (startOf [0x04, 0x00, 0x00] 0))).map (fun s => (s.status, s.fault.cause)) =
      some (.fault, .addressOutOfRange) := by decide
/-- X11: what the record of an IllegalOpcode fixes. -/
theorem test_illegal_opcode :
    (after (step (startOf [0x00, 0x00, 0x00]))).map (fun s => (s.status, s.fault.cause, s.fault.word)) =
      some (.fault, .illegalOpcode, 0) := by decide
/-- F8: the missing third byte reads as 0. -/
theorem test_short_record :
    (after (step (startOf [0xFE, 0xFF]))).map (fun s => (s.stack, s.trace)) =
      some ([4095], [.loadConst 4095]) := by decide
/-- Q4 and Q5. -/
theorem test_zero_budget :
    (after (step (startOf [0x1E, 0x00, 0x00] 2048 0))).map (·.status) = some .stepLimit ∧
    (after (step (startOf [] 2048 0))).map (·.status) = some .completed := by decide
/-- The host's word runs as the first instruction after reset. -/
theorem test_withFetchWord :
    (after (step (State.reset.withFetchWord 24 0x07FFFE))).map (fun s => (s.pc, s.stack)) =
      some (1, [-1]) := by decide
theorem test_packer_port : packerPort .loadConst 0x7FFF = 0x07FFFE := by decide
theorem test_host_read :
    (startOf []).hostReadCell 0 = .refused .hostMoveDuringRun := by rfl

/-- LOAD_CONST 5, then a word with opcode 0: after the fault the host reads the trace of the one completed
step (70_reset_and_hazards.md R207). -/
theorem test_trace_is_readable_after_fault :
    ∃ t v, (startOf [0x5E, 0x00, 0x00, 0x00] 1).loop 2 = .next t ∧ t.hostView = .next v ∧
      v.status = .fault ∧ v.trace = [.loadConst 5] ∧ v.memory = [0] ∧ v.stack = some [5] :=
  ⟨_, _, rfl, rfl, rfl, rfl, rfl, rfl⟩
theorem test_start_refuses : State.start [] 2049 = .refused (.memoryLengthOutOfRange 2049) := by rfl

/-! ### Witnesses: states and operands that meet the statements' hypotheses -/

theorem witness_DecodeAfterEncodeIsIdentity :
    (Instr.loadConst (-16384)).wellFormed = true ∧ (Instr.sgn 2047).wellFormed = true := by decide

theorem witness_EncodeAfterDecodeIsIdentityExactlyOnCanonical :
    (decode ⟨0x0B, 0x80, 0x00⟩ = .record (.readMem 2048) ∧
      (InstrBytes.mk 0x0B 0x80 0x00).canonical = false) ∧
    (decode ⟨0x4B, 0x06, 0xFF⟩ = .record (.readMem 100) ∧
      (InstrBytes.mk 0x4B 0x06 0xFF).canonical = false) ∧
    (InstrBytes.mk 0x4B 0x06 0x00).canonical = true := by decide

theorem witness_EncodeProducesEachCanonicalEncodingOnce :
    encode (.loadConst 16383) = some ⟨0xFE, 0xFF, 0x03⟩ ∧
    encode (.readMem 2047) = some ⟨0xFB, 0x7F, 0x00⟩ ∧
    (InstrBytes.mk 0xFB 0x7F 0x00).canonical = true := by decide

theorem witness_EncodeTellsValidRecordsApart :
    (encode (.readMem 0) = some ⟨0x0B, 0x00, 0x00⟩ ∧ encode (.sgn 0) = some ⟨0x04, 0x00, 0x00⟩ ∧
      Instr.readMem 0 ≠ .sgn 0 ∧ (Instr.readMem 0).mnemonic ≠ (Instr.sgn 0).mnemonic) ∧
    (encode (.readMem 1) = some ⟨0x1B, 0x00, 0x00⟩ ∧ Instr.readMem 0 ≠ .readMem 1 ∧
      (Instr.readMem 0).mnemonic = (Instr.readMem 1).mnemonic) := by decide

theorem witness_RecordsAndEncodingsExistExactlyInRange :
    recordInRange .loadConst (-16384) = true ∧ recordInRange .loadConst (-16385) = false ∧
    recordInRange .sgn 2047 = true ∧ recordInRange .sgn 2048 = false ∧
    recordInRange .writeMem 0 = true ∧ recordInRange .writeMem (-1) = false := by decide

theorem witness_EveryWordDecodesAsTabulated :
    (0x04000E : InstrWord).extractLsb' 0 4 = 14 ∧ (0x00800B : InstrWord).extractLsb' 0 4 = 11 ∧
    (0x007FF7 : InstrWord).extractLsb' 0 4 = 7 ∧ (0xFFFFF4 : InstrWord).extractLsb' 0 4 = 4 ∧
    ((0xFFFFFF : InstrWord).extractLsb' 0 4 ≠ 14 ∧ (0xFFFFFF : InstrWord).extractLsb' 0 4 ≠ 11 ∧
      (0xFFFFFF : InstrWord).extractLsb' 0 4 ≠ 7 ∧ (0xFFFFFF : InstrWord).extractLsb' 0 4 ≠ 4) := by
  decide

/-- Field values 16383 and 16384, either side of the sign bit. -/
theorem witness_ImmediateFollowsTheSignRule :
    ((InstrBytes.mk 0xFE 0xFF 0x03).opcode = 14 ∧
      decode ⟨0xFE, 0xFF, 0x03⟩ = .record (.loadConst 16383)) ∧
    ((InstrBytes.mk 0x0E 0x00 0x04).opcode = 14 ∧
      decode ⟨0x0E, 0x00, 0x04⟩ = .record (.loadConst (-16384))) ∧
    (-16384 : Int) ≤ -16384 ∧ (-16384 : Int) ≤ 16383 := by decide

theorem witness_DecodedAddressIsValidExactlyBelow2048 :
    (decode ⟨0x0B, 0x80, 0x00⟩ = .record (.readMem 2048) ∧
      (Instr.readMem 2048).mnemonic ≠ .loadConst ∧ (InstrBytes.mk 0x0B 0x80 0x00).b1.msb = true) ∧
    (decode ⟨0xFB, 0x7F, 0x00⟩ = .record (.readMem 2047) ∧
      (InstrBytes.mk 0xFB 0x7F 0x00).b1.msb = false) := by decide

theorem witness_ReservedBitsDoNotInfluenceDecoding :
    mnemonicOfOpcode (InstrBytes.mk 0xFE 0xFF 0x07).opcode = some .loadConst ∧
    ((0xFF : Byte) ^^^ (InstrBytes.mk 0xFE 0xFF 0xFF).reservedBits .loadConst) =
      ((0x07 : Byte) ^^^ (InstrBytes.mk 0xFE 0xFF 0x07).reservedBits .loadConst) ∧
    encode (.loadConst (-1)) = some ⟨0xFE, 0xFF, 0x07⟩ := by decide

/-- A trailing partial record with an illegal low nibble (F7). -/
theorem witness_IllegalOpcodesSelectNoInstruction :
    let s := { startOf [0x9E, 0x00, 0x00, 0x03] with pc := 1, stepCount := 1 }
    s.status = .running ∧ s.pc < s.config.numInstrs ∧ s.stepCount < s.config.stepLimit ∧
      s.fetch.opcode ∉ [(14 : BitVec 4), 11, 7, 4] := by decide

theorem witness_EncodePacksOpcodeAndField :
    (Instr.loadConst (-1)).wellFormed = true ∧ (Instr.writeMem 2047).wellFormed = true ∧
    (Instr.loadConst (-1)).mnemonic = .loadConst ∧ (Instr.writeMem 2047).mnemonic ≠ .loadConst := by
  decide

/-- 0x03FFFE is LOAD_CONST 16383 (E9), and its masked word is the match of the table. -/
theorem witness_OpcodeMapIsComplete :
    (0x03FFFE : InstrWord) &&& 0x00000F = Mnemonic.loadConst.opcode.setWidth 24 ∧
    decode (.ofWord 0x03FFFE) = .record (.loadConst 16383) := by decide

/-- Binaries of 3, 4 and 5 bytes. -/
theorem witness_FetchPadsTheLastRecordWithZeros :
    let c0 := (startOf [0x5E, 0x00, 0x00]).config
    let c1 := (startOf [0x9E, 0x00, 0x00, 0x57]).config
    let c2 := (startOf [0x9E, 0x00, 0x00, 0x47, 0x06]).config
    (c0.prog.length % 3 = 0 ∧ 0 < c0.numInstrs) ∧
    (c1.prog.length % 3 = 1 ∧ 1 < c1.numInstrs ∧ 0 + 1 < c1.numInstrs ∧ 3 < c1.prog.length) ∧
    (c2.prog.length % 3 = 2 ∧ c2.prog.length ≤ 5) := by decide

theorem witness_EncodedProgramDecodesRecordByRecord :
    (∀ i ∈ [Instr.loadConst 5, .writeMem 100], i.wellFormed = true) ∧
    encodeProgram [.loadConst 5, .writeMem 100] = some [0x5E, 0x00, 0x00, 0x47, 0x06, 0x00] ∧
    [Instr.loadConst 5, .writeMem 100][1]? = some (.writeMem 100) ∧
    (∃ i ∈ [Instr.loadConst 5, .readMem 2048], i.wellFormed = false) := by decide

theorem witness_CodecPortsAgreeWithTheCodec :
    encode (.sgn 2047) = some ⟨0xF4, 0x7F, 0x00⟩ ∧ (decoderPort 0x007FF4).decValid = true ∧
    (decoderPort 0x00000F).decValid = false ∧
    decode (.ofWord 0x07FFFE) = .record (.loadConst (-1)) ∧
    decode (.ofWord 0x00800B) = .record (.readMem 2048) ∧
    decode (.ofWord 0x00000F) = .illegalOpcode 15 := by decide

/-- A word that is no encoding of a valid record: `0B 80 00`, READ_MEM 2048 (30_encoding.md R85). -/
theorem test_decoder_port_non_canonical :
    decoderPort 0x00800B =
      { decValid := true, decMnemonic := some .readMem, decOperand := some 2048,
        decIllegal := false } := by decide

theorem witness_LoadConstPushesItsConstant : (InstrBytes.mk 0xFE 0xFF 0x07).opcode = 14 := by decide

/-- The last cell and the first address that does not exist, with 100 cells (X4, X5). -/
theorem witness_ReadMemPushesTheCell :
    let s := startOf [0x3B, 0x06, 0x00] 100
    (99 : Address).toNat < s.config.memLen.val ∧ s.config.memLen.val ≤ (100 : Address).toNat ∧
    (InstrBytes.mk 0x3B 0x06 0x00).opcode = 11 := by decide

theorem witness_WriteMemPopsIntoTheCell :
    let s := withData [2, 1] [(0, 8), (7, -1)]
    (s.mem.wf ∧ (2047 : Address).toNat < s.config.memLen.val ∧ s.stack = [2, 1]) ∧
    s.config.memLen.val ≤ (2048 : Address).toNat ∧
    ((2047 : Address).toNat < (startOf []).config.memLen.val ∧ (startOf []).stack = []) := by decide

theorem witness_SgnPushesTheSignOfTheCell :
    let s := withData [] [(0, -16384), (2047, 16383)]
    ((2047 : Address).toNat < s.config.memLen.val ∧ 0 < s.memRead (2047 : Address).toNat) ∧
    s.memRead (0 : Address).toNat < 0 ∧ s.memRead (1 : Address).toNat = 0 ∧
    s.config.memLen.val ≤ (2048 : Address).toNat ∧ (InstrBytes.mk 0x04 0x00 0x00).opcode = 4 := by
  decide

theorem witness_RaiseRecordsTheFaultAndNothingElse :
    ((startOf []).raise (.addressOutOfRange 2048)).fault.operand = 2048 ∧
    ((startOf []).raise (.stackUnderflow 7)).fault.operand = 7 := by decide

theorem witness_BoundsCheckPrecedesEveryAccess :
    let s := withData [1] [(3, 4)]
    Instr.sgn 2048 ∈ [Instr.readMem 2048, .writeMem 2048, .sgn 2048] ∧
    s.config.memLen.val ≤ (2048 : Address).toNat ∧ (2047 : Address).toNat < s.config.memLen.val ∧
    2048 ≤ (2048 : Address).toNat ∧ s.status ≠ .fault ∧ s.mem.wf ∧
    (∃ t, exec (.writeMem 2047) (startOf []) = .next t ∧ t.status = .fault) :=
  ⟨by decide, by decide, by decide, by decide, by decide, by decide, _, rfl, rfl⟩

/-- A state in which an instruction can run, here with no fault. -/
theorem witness_ProgramCounterAdvancesByOneOrStays :
    let s := startOf [0x5E, 0x00, 0x00]
    s.status = .running ∧ s.pc < s.config.numInstrs ∧ s.stepCount < s.config.stepLimit ∧
      ∃ t, step s = .next t ∧ t.status = .running :=
  ⟨rfl, by decide, by decide, _, rfl, rfl⟩

theorem witness_StackIsLastInFirstOut :
    (∃ t, exec (.writeMem 0) (withData [2, 1] []) = .next t ∧ t.status = .running) ∧
    (∃ t, exec (.sgn 0) (withData [] []) = .next t ∧ t.status = .running) ∧
    (withData [2, 1] []).status = .running ∧ (withData [2, 1] []).stack ≠ [] :=
  ⟨⟨_, rfl, rfl⟩, ⟨_, rfl, rfl⟩, rfl, by decide⟩

theorem witness_OnlyWriteMemChangesDataMemory :
    (∃ t, step (withData [2] [] [0x07, 0x00, 0x00]) = .next t ∧ t.memRead 0 ≠ 0) ∧
    (∃ t, exec (.readMem 1) (withData [] []) = .next t) ∧
    Memory.read [(0, 9)] (1 : Address).toNat = (withData [] []).memRead (1 : Address).toNat ∧
    0 < (withData [] []).dump.length :=
  ⟨⟨_, rfl, by decide⟩, ⟨_, rfl⟩, rfl, by simp [State.dump, withData, startOf, State.resetWith]⟩

theorem witness_InstructionSpaceIsImmutable :
    (∃ t, step (withData [2] [] [0x07, 0x00, 0x00]) = .next t) ∧
    ∃ t, (withData [2] [] [0x07, 0x00, 0x00]).loop 2 = .next t :=
  ⟨⟨_, rfl⟩, _, rfl⟩

theorem witness_NoStepSetsHalted :
    (∃ t, step (startOf [0x00]) = .next t ∧ t.status = .fault) ∧
    ∃ t, (startOf [0x00]).loop 2 = .next t :=
  ⟨⟨_, rfl, rfl⟩, _, rfl⟩

theorem witness_StepRunsTheDecodedInstruction :
    let s := startOf [0x4B, 0x06, 0x00]
    s.status = .running ∧ s.pc < s.config.numInstrs ∧ s.stepCount < s.config.stepLimit ∧
      decode s.fetch = .record (.readMem 100) := by decide

theorem witness_PlacedWordRunsNext : decodeTableWord 24 0x000647 = some (.writeMem 100) := by decide

/-- At the end with budget spent too (Q3), and spent before the end (Q1). -/
theorem witness_TerminationTestsChangeStatusOnly :
    let s := { startOf [0x1E, 0x00, 0x00] 2048 1 with pc := 1, stepCount := 1 }
    let t := { startOf [0x1E, 0x00, 0x00, 0x07] 2048 1 with pc := 1, stepCount := 1 }
    (s.status = .running ∧ s.config.numInstrs ≤ s.pc) ∧
    (t.status = .running ∧ t.pc < t.config.numInstrs ∧ t.config.stepLimit ≤ t.stepCount) := by decide

theorem witness_TerminalStatesDoNotChange :
    ({ startOf [] with status := .completed } : State).status ≠ .running := by decide

theorem witness_FaultsArePreciseAndPrioritised :
    let s := startOf [0x07, 0x80, 0x00]
    s.status = .running ∧ s.pc < s.config.numInstrs ∧ s.stepCount < s.config.stepLimit ∧
      decode s.fetch = .record (.writeMem 2048) := by decide

theorem witness_FaultWordNamesTheInstruction :
    (∃ t, step (startOf [0x0B, 0x80, 0x00]) = .next t ∧ t.status = .fault ∧
      t.fault.cause ≠ .illegalOpcode) ∧
    (∃ t, step (startOf [0x00]) = .next t ∧ t.status = .fault ∧ t.fault.cause = .illegalOpcode) :=
  ⟨⟨_, rfl, rfl, by decide⟩, _, rfl, rfl, rfl⟩

theorem witness_EveryStepKeepsMemoryCanonical :
    (withData [0] [(4, 6)] [0x47, 0x00, 0x00]).mem.wf ∧
    ∃ t, step (withData [0] [(4, 6)] [0x47, 0x00, 0x00]) = .next t :=
  ⟨by decide, _, rfl⟩

/-- One LOAD_CONST into a run: a sound state that is not the reset state. -/
def midRun : State :=
  { startOf [0x5E, 0x00, 0x00, 0x47, 0x06, 0x00] with
    pc := 1, stepCount := 1, stack := [5], trace := [.loadConst 5] }

theorem midRun_sound : midRun.Sound where
  memory := ⟨by decide, by decide, fun p hp => by simp [midRun, startOf, State.resetWith] at hp⟩
  stack_in_range := fun v hv => by
    have : v = 5 := by simpa [midRun] using hv
    simp [this, valueInRange]
  counters := ⟨rfl, by decide, by decide, by decide, rfl⟩
  trace := ⟨rfl, fun k i h => by
    match k, h with
    | 0, h =>
      have : i = .loadConst 5 := by simpa [midRun] using h.symm
      subst this
      decide
    | k + 1, h => simp [midRun] at h⟩
  status := ⟨by decide, by decide, by decide, fun h => by simp [midRun, startOf, State.resetWith] at h⟩

theorem witness_EveryStepKeepsTheStateSound :
    midRun.Sound ∧ ∃ t, step midRun = .next t ∧ t.mem = [(100, 5)] :=
  ⟨midRun_sound, _, rfl, rfl⟩

theorem witness_StackAndMemoryAreTheTraceReplayed :
    midRun.mem.wf ∧ midRun.IsReplay ∧ ∃ t, step midRun = .next t ∧ t.mem = [(100, 5)] :=
  ⟨by decide, rfl, _, rfl, rfl⟩

/-- Arguments at both ends of their ranges. -/
theorem witness_EveryRunEndsWithinItsBound :
    ((0 : Int) ≤ 0 ∧ (0 : Int) ≤ 2048) ∧ ((0 : Int) ≤ 2048 ∧ (2048 : Int) ≤ 2048) ∧
    (startOf [0x5E]).config.passBound ≤ 5 := by decide

theorem witness_RunIsFaultFreeExactlyWhenTheCheckPasses :
    (startOf [0x5E]).config.runsClean = true ∧ (startOf [0x07]).config.runsClean = false := by decide

theorem witness_FaultFreeRunEndsCompletedOrAtTheLimit :
    (∃ t, (startOf [0x5E]).loop (startOf [0x5E]).config.passBound = .next t ∧ t.Safe ∧
      (startOf [0x5E]).config.numInstrs ≤ (startOf [0x5E]).config.stepLimit) ∧
    (∃ t, (startOf [0x5E] 2048 0).loop (startOf [0x5E] 2048 0).config.passBound = .next t ∧ t.Safe ∧
      (startOf [0x5E] 2048 0).config.stepLimit < (startOf [0x5E] 2048 0).config.numInstrs) :=
  ⟨⟨_, rfl, by simp [State.Safe], by decide⟩, _, rfl, by simp [State.Safe], by decide⟩

theorem witness_InstructionsBeyondTheLimitHaveNoEffect :
    let c := (startOf [0x1E, 0x00, 0x00, 0x07] 2048 1).config
    let d := (startOf [0x1E, 0x00, 0x00, 0x00, 0x01] 2048 1).config
    d.memLen = c.memLen ∧ d.stepLimit = c.stepLimit ∧ c.stepLimit < c.numInstrs ∧
      d.stepLimit < d.numInstrs ∧ ∀ i, i < c.stepLimit → d.fetch i = c.fetch i := by decide

theorem witness_WrittenOutPaddingChangesNothing :
    let c := (startOf [0x9E, 0x00, 0x00, 0x57]).config
    let d := (startOf [0x9E, 0x00, 0x00, 0x57, 0x00, 0x00]).config
    d.memLen = c.memLen ∧ d.stepLimit = c.stepLimit ∧
      d.prog = c.prog ++ List.replicate ((3 - c.prog.length % 3) % 3) 0 := by decide

theorem witness_FifteenBitCellsLoseNothing : midRun.Sound ∧ 15 ≤ 15 := ⟨midRun_sound, by decide⟩

theorem witness_HostReadsOnlyAfterTheRun :
    (startOf []).status = .running ∧
    ({ startOf [] with status := .completed } : State).status = .completed ∧
    ({ startOf [] with status := .stepLimit } : State).status = .stepLimit ∧
    ({ startOf [] with status := .fault } : State).status = .fault ∧
    0 < (startOf [] 1).dump.length ∧ (startOf [] 1).dump.length ≤ 1 := by decide

theorem witness_StartResetsEverythingOrRefuses :
    ((0 : Int) ≤ 2048 ∧ (2048 : Int) ≤ 2048 ∧ (0 : Int) ≤ 0) ∧
    ((-1 : Int) < 0 ∧ (2048 : Int) < 2049) ∧ ((0 : Int) ≤ 0 ∧ (-1 : Int) < 0) := by decide

theorem witness_TraceStreamPulsesOncePerCompletedStep :
    (∃ t, step midRun = .next t ∧ tracePulse midRun t = some (.writeMem 100)) ∧
    ∃ t, step (startOf []) = .next t ∧ tracePulse (startOf []) t = none :=
  ⟨⟨_, rfl, rfl⟩, _, rfl, rfl⟩

theorem witness_PortsShowTheState :
    midRun.sequencerPort.status = 0 ∧ (midRun.config.programStorePort 6).imemValid = false ∧
    (midRun.config.programStorePort 5).imemValid = true ∧ midRun.stackEmpty = false := by decide

theorem test_write_mem_ports :
    midRun.stepPorts = { PortUse.idle with pop := some 5, write := some ⟨100, 5⟩ } ∧
    midRun.stepPorts.wrEn = true := by decide

theorem witness_PortsCarryEveryEffectOnStackAndMemory :
    (∃ t, step midRun = .next t ∧ t.mem = [(100, 5)] ∧ (midRun.drive midRun.stepPorts).mem = t.mem) ∧
    PortUse.idle.wrEn = false :=
  ⟨⟨_, rfl, rfl, rfl⟩, rfl⟩

end Sys2Proof.Tests
end

/-! SUPPORT. Each instruction's answer read off `Effect` and `Raises`, and what an effect leaves unchanged:
the facts that the statements about single pieces of state (10_state.md) share. -/

namespace Sys2Proof.Machine

/-! ### An instruction's answer -/

/-- An instruction has one effect only. -/
theorem Effect.unique {s u v : State} {i : Instr} (hu : Effect s i u) (hv : Effect s i v) : u = v := by
  cases hu with
  | loadConst c => cases hv; rfl
  | readMem addr h => cases hv; rfl
  | writeMem addr h c rest hs =>
    cases hv with
    | writeMem _ _ c' rest' hs' =>
      obtain ⟨rfl, rfl⟩ := List.cons.inj (hs.symm.trans hs')
      rfl
  | sgn addr h => cases hv; rfl

/-- An instruction that has its effect raises nothing. -/
theorem Effect.not_raises {s u : State} {i : Instr} {r : Raised} (hu : Effect s i u) : ¬ Raises s i r := by
  intro hr
  cases hr with
  | readMem addr h => cases hu; omega
  | writeMem addr h => cases hu; omega
  | underflow addr h hs =>
    cases hu with
    | writeMem _ _ v rest hs' => exact absurd (hs'.symm.trans hs) (List.cons_ne_nil v rest)
  | sgn addr h => cases hu; omega

/-- An instruction raises one fault only: the address is checked before the depth (R176). -/
theorem Raises.unique {s : State} {i : Instr} {r q : Raised} (hr : Raises s i r) (hq : Raises s i q) :
    r = q := by
  cases hr with
  | readMem addr h => cases hq; rfl
  | writeMem addr h =>
    cases hq with
    | writeMem _ _ => rfl
    | underflow _ h' _ => omega
  | underflow addr h hs =>
    cases hq with
    | writeMem _ h' => omega
    | underflow _ _ _ => rfl
  | sgn addr h => cases hq; rfl

theorem exec_of_effect {s u : State} {i : Instr} (hu : Effect s i u) :
    exec i s = .next (u.retire i) := by
  rcases exec_cases i s with ⟨v, hv, hx⟩ | ⟨r, hr, _⟩
  · rw [hx, hu.unique hv]
  · exact absurd hr hu.not_raises

theorem exec_of_raises {s : State} {i : Instr} {r : Raised} (hr : Raises s i r) :
    exec i s = .next (s.raise r) := by
  rcases exec_cases i s with ⟨u, hu, _⟩ | ⟨q, hq, hx⟩
  · exact absurd hr hu.not_raises
  · rw [hx, hr.unique hq]

/-- The next states of an instruction: its effect retired, or its fault taken. -/
theorem exec_eq_next_iff {s t : State} {i : Instr} :
    exec i s = .next t ↔
      (∃ u, Effect s i u ∧ t = u.retire i) ∨ (∃ r, Raises s i r ∧ t = s.raise r) := by
  constructor
  · intro h
    rcases exec_cases i s with ⟨u, hu, hx⟩ | ⟨r, hr, hx⟩ <;> cases h.symm.trans hx
    · exact .inl ⟨u, hu, rfl⟩
    · exact .inr ⟨r, hr, rfl⟩
  · rintro (⟨u, hu, rfl⟩ | ⟨r, hr, rfl⟩)
    · exact exec_of_effect hu
    · exact exec_of_raises hr

/-! ### What an effect leaves unchanged -/

/-- An instruction's own pseudocode touches the stack and data memory and nothing else (table T155). -/
theorem Effect.frame {s u : State} {i : Instr} (h : Effect s i u) :
    u = { s with stack := u.stack, mem := u.mem } := by
  cases h <;> rfl

theorem Effect.pc_eq {s u : State} {i : Instr} (h : Effect s i u) : u.pc = s.pc := by
  rw [h.frame]

theorem Effect.status_eq {s u : State} {i : Instr} (h : Effect s i u) : u.status = s.status := by
  rw [h.frame]

/-- Only WRITE_MEM changes data memory, on an address in range and in its own cell alone. -/
theorem Effect.memRead_cases {s u : State} {i : Instr} (h : Effect s i u) :
    (∀ a, u.memRead a = s.memRead a) ∨
    (∃ addr, i = .writeMem addr ∧ addr.toNat < s.config.memLen.val ∧
      ∀ a, a ≠ addr.toNat → u.memRead a = s.memRead a) := by
  cases h with
  | loadConst v => exact .inl fun _ => rfl
  | readMem addr h => exact .inl fun _ => rfl
  | writeMem addr h v rest hs =>
    exact .inr ⟨addr, rfl, h, fun _ ha => Memory.read_write_other s.mem v ha⟩
  | sgn addr h => exact .inl fun _ => rfl

/-! ### The program counter (10_state.md R22) -/

/-- Settles O24, from what a step can do: only retiring moves the program counter. -/
theorem programCounterAdvancesByOneOrStays : Obligations.ProgramCounterAdvancesByOneOrStays := by
  constructor
  · intro s t hrun hpc hbudget h
    cases step_cases h with
    | ended hs => exact absurd hrun hs
    | completed _ hend => omega
    | spent _ _ hspent => omega
    | illegal | raised => exact .inr ⟨rfl, rfl⟩
    | retired _ _ _ i _ u hu =>
      exact .inl ⟨hu.status_eq.trans hrun, congrArg (· + 1) hu.pc_eq⟩
  · intro s t h
    cases step_cases h with
    | ended | completed | spent | illegal | raised => exact .inl rfl
    | retired _ _ _ i _ u hu => exact .inr (congrArg (· + 1) hu.pc_eq)

/-! ### The stack (10_state.md R24) -/

/-- WRITE_MEM pops one entry. -/
theorem Effect.stack_of_writeMem {s u : State} {i : Instr} (h : Effect s i u)
    (hi : i.mnemonic = .writeMem) : ∃ v, s.stack = v :: u.stack := by
  cases h with
  | writeMem addr _ v rest hs => exact ⟨v, hs⟩
  | loadConst | readMem | sgn => cases hi

/-- Every other instruction pushes one entry. -/
theorem Effect.stack_of_ne_writeMem {s u : State} {i : Instr} (h : Effect s i u)
    (hi : i.mnemonic ≠ .writeMem) : ∃ v, u.stack = v :: s.stack := by
  cases h with
  | writeMem => exact absurd rfl hi
  | loadConst | readMem | sgn => exact ⟨_, rfl⟩

/-- Entries put below the stack are still there, below, after the effect, which is otherwise the same. -/
theorem Effect.append_below {s u : State} {i : Instr} (h : Effect s i u) (below : List Int) :
    Effect { s with stack := s.stack ++ below } i { u with stack := u.stack ++ below } := by
  cases h with
  | loadConst v => exact .loadConst v
  | readMem addr h => exact .readMem addr h
  | writeMem addr h v rest hs =>
    exact .writeMem (s := { s with stack := s.stack ++ below }) addr h v (rest ++ below)
      (congrArg (· ++ below) hs)
  | sgn addr h => exact .sgn addr h

/-- Entries put below the stack prevent no fault but the underflow of an empty stack. -/
theorem Raises.append_below {s : State} {i : Instr} {r : Raised} (h : Raises s i r) (below : List Int)
    (hne : i.mnemonic = .writeMem → s.stack ≠ []) :
    Raises { s with stack := s.stack ++ below } i r := by
  cases h with
  | readMem addr h => exact .readMem addr h
  | writeMem addr h => exact .writeMem addr h
  | underflow addr h hs => exact absurd hs (hne rfl)
  | sgn addr h => exact .sgn addr h

/-- An instruction that does not find the stack empty where it pops does the same above any entries. -/
theorem exec_append_below {s t : State} {i : Instr} (below : List Int)
    (hne : i.mnemonic = .writeMem → s.stack ≠ []) (h : exec i s = .next t) :
    exec i { s with stack := s.stack ++ below } = .next { t with stack := t.stack ++ below } := by
  rcases exec_eq_next_iff.mp h with ⟨u, hu, rfl⟩ | ⟨r, hr, rfl⟩
  · exact exec_of_effect (hu.append_below below)
  · exact exec_of_raises (hr.append_below below hne)

/-- Settles O25: the first two clauses from the instruction's effect, the others from push and pop. -/
theorem stackIsLastInFirstOut : Obligations.StackIsLastInFirstOut := by
  refine ⟨?_, fun i s t below hne h => exec_append_below below hne h, ?_, ?_, fun _ => rfl⟩
  · intro i s t _ h ht
    rcases exec_eq_next_iff.mp h with ⟨u, hu, rfl⟩ | ⟨r, _, rfl⟩
    · exact ⟨hu.stack_of_writeMem, hu.stack_of_ne_writeMem⟩
    · cases ht
  · exact fun s v => ⟨(State.pop_eq_some_iff _ _ _).mpr ⟨s.stack, rfl, rfl⟩, rfl⟩
  · exact fun s => s.pop_eq_none_iff.trans List.length_eq_zero_iff.symm

/-! ### Data memory (10_state.md R33) -/

/-- The effect of READ_MEM and SGN is the same over any memory that agrees on the one cell they read. -/
theorem Effect.replace_mem {s u : State} {addr : Address} {i : Instr} {m : Memory}
    (h : Effect s i u) (hi : i ∈ [Instr.readMem addr, .sgn addr])
    (hm : m.read addr.toNat = s.memRead addr.toNat) :
    Effect { s with mem := m } i { u with mem := m } := by
  have hcell : ({ s with mem := m } : State).memRead addr.toNat = s.memRead addr.toNat := hm
  simp only [List.mem_cons, List.not_mem_nil, or_false] at hi
  rcases hi with rfl | rfl
  · cases h with
    | readMem _ h =>
      rw [← hcell]
      exact .readMem addr h
  · cases h with
    | sgn _ h =>
      rw [← hcell]
      exact .sgn addr h

/-- Whether an instruction faults does not depend on data memory. -/
theorem Raises.replace_mem {s : State} {i : Instr} {r : Raised} (h : Raises s i r) (m : Memory) :
    Raises { s with mem := m } i r := by
  cases h with
  | readMem addr h => exact .readMem addr h
  | writeMem addr h => exact .writeMem addr h
  | underflow addr h hs => exact .underflow addr h hs
  | sgn addr h => exact .sgn addr h

/-- READ_MEM and SGN do the same over any memory that agrees on the one cell they read. -/
theorem exec_replace_mem {s t : State} {addr : Address} {i : Instr} {m : Memory}
    (hi : i ∈ [Instr.readMem addr, .sgn addr]) (hm : m.read addr.toNat = s.memRead addr.toNat)
    (h : exec i s = .next t) : exec i { s with mem := m } = .next { t with mem := m } := by
  rcases exec_eq_next_iff.mp h with ⟨u, hu, rfl⟩ | ⟨r, hr, rfl⟩
  · exact exec_of_effect (hu.replace_mem hi hm)
  · exact exec_of_raises (hr.replace_mem m)

/-- A step changes a cell only where the fetched word is a WRITE_MEM to it. -/
theorem step_memRead_cases {s t : State} (h : step s = .next t) :
    (∀ a, t.memRead a = s.memRead a) ∨
    (∃ addr, decode s.fetch = .record (.writeMem addr) ∧ addr.toNat < s.config.memLen.val ∧
      ∀ a, a ≠ addr.toNat → t.memRead a = s.memRead a) := by
  cases step_cases h with
  | ended | completed | spent | illegal | raised => exact .inl fun _ => rfl
  | retired _ _ _ i hd u hu =>
    rcases hu.memRead_cases with hsame | ⟨addr, rfl, haddr, hother⟩
    · exact .inl hsame
    · exact .inr ⟨addr, hd, haddr, hother⟩

theorem State.dump_getElem (s : State) (a : Nat) (h : a < s.dump.length) : s.dump[a] = s.memRead a := by
  simp [State.dump]

/-- Settles O26: the step's clause from the effects, the reads' clause from the one cell they read. -/
theorem onlyWriteMemChangesDataMemory : Obligations.OnlyWriteMemChangesDataMemory :=
  ⟨fun _ _ h => step_memRead_cases h, fun _ _ _ _ _ hi hm h => exec_replace_mem hi hm h,
    fun s => ⟨s.dump_length, s.dump_getElem⟩, fun _ _ => rfl⟩

end Sys2Proof.Machine

/-! SUPPORT. The instruction space (20_memory.md): the bytes of a fetched instruction in the binary, and that
no step and no run changes the binary. -/

namespace Sys2Proof.Machine

/-! ### The bytes of a fetched instruction (20_memory.md R54) -/

@[simp] theorem RunConfig.fetch_b0 (c : RunConfig) (k : Nat) :
    (c.fetch k).b0 = c.byteAt (3 * k) := rfl
@[simp] theorem RunConfig.fetch_b1 (c : RunConfig) (k : Nat) :
    (c.fetch k).b1 = c.byteAt (3 * k + 1) := rfl
@[simp] theorem RunConfig.fetch_b2 (c : RunConfig) (k : Nat) :
    (c.fetch k).b2 = c.byteAt (3 * k + 2) := rfl

/-- Settles O14: the word and its fields in numbers hold of any three bytes; `Fetch` says which bytes of the
binary these are. -/
theorem fetchedInstructionIsLittleEndian : Obligations.FetchedInstructionIsLittleEndian := by
  intro c k
  have hword := (c.fetch k).toNat_word
  have hopcode := (c.fetch k).toNat_opcode
  have himmediate := (c.fetch k).toNat_immediateField
  have haddress := (c.fetch k).toNat_addressField
  rw [c.fetch_b0] at hopcode
  rw [c.fetch_b0, c.fetch_b1, c.fetch_b2] at himmediate
  rw [c.fetch_b0, c.fetch_b1] at haddress
  exact ⟨c.fetch_b0 k, c.fetch_b1 k, c.fetch_b2 k, hword, hopcode, himmediate, haddress⟩

/-! ### Immutability of the instruction space (20_memory.md R64) -/

theorem Effect.config_eq {s u : State} {i : Instr} (h : Effect s i u) : u.config = s.config := by
  rw [h.frame]

/-- No pass of the sequencer changes the configuration: an instruction's effect does not, nor do the
retiring, the raise and the status changes around it. -/
theorem step_config_eq {s t : State} (h : step s = .next t) : t.config = s.config := by
  cases step_cases h with
  | ended | completed | spent => rfl
  | illegal => exact s.raise_config .illegalOpcode
  | raised _ _ _ i _ r => exact s.raise_config r
  | retired _ _ _ i _ u hu => exact (u.retire_config i).trans hu.config_eq

theorem State.loop_config_eq {k : Nat} {s t : State} (h : s.loop k = .next t) :
    t.config = s.config :=
  State.loop_induction (fun s t => t.config = s.config) (fun _ => rfl)
    (fun _ _ _ hstep hrest => hrest.trans (step_config_eq hstep)) k s t h

/-- Settles O27: the configuration survives each step, so by the induction over the loop any number of
passes, and the binary that is fetched from is part of it. -/
theorem instructionSpaceIsImmutable : Obligations.InstructionSpaceIsImmutable := by
  refine ⟨fun s t h => step_config_eq h, fun k s t h => ?_, fun s a v => s.memWrite_config a v⟩
  have hconfig : t.config = s.config := State.loop_config_eq h
  exact ⟨hconfig, fun i => by rw [hconfig]⟩

end Sys2Proof.Machine

/-! SUPPORT. The encoding (30_encoding.md): the opcode map read in both directions and in the 24-bit word, what
reaching an illegal opcode does, and the sign rule in numbers. -/

namespace Sys2Proof

open Sys2Proof.Machine

/-! ### The opcode map (30_encoding.md R88) -/

/-- A nibble selects a mnemonic exactly where it is that mnemonic's opcode. -/
theorem mnemonicOfOpcode_eq_some_iff (op : BitVec 4) (m : Mnemonic) :
    mnemonicOfOpcode op = some m ↔ op = m.opcode := by
  constructor
  · intro h
    unfold mnemonicOfOpcode at h
    split_ifs at h <;> cases h <;> assumption
  · rintro rfl
    exact mnemonicOfOpcode_opcode m

/-- A word decodes to a record of the mnemonic that its opcode selects, and of no other. -/
theorem exists_decode_eq_record_iff (b : InstrBytes) (m : Mnemonic) :
    (∃ i, decode b = .record i ∧ i.mnemonic = m) ↔ b.opcode = m.opcode := by
  rw [← mnemonicOfOpcode_eq_some_iff]
  constructor
  · rintro ⟨i, hi, rfl⟩
    exact (decode_eq_record hi).1
  · intro hm
    cases hd : decode b with
    | record i =>
      have hi := (decode_eq_record hd).1
      exact ⟨i, rfl, Option.some.inj (hi.symm.trans hm)⟩
    | illegalOpcode op =>
      have hnone := (decode_eq_illegalOpcode hd).2
      cases hnone.symm.trans hm

/-- The mask of the opcode table cuts the opcode out of the 24-bit word (R81). -/
theorem and_opcodeMask (w : InstrWord) :
    w &&& 0x00000F = (InstrBytes.ofWord w).opcode.setWidth 24 := by
  apply BitVec.eq_of_toNat_eq
  have hmask : w.toNat &&& 15 = w.toNat % 16 := Nat.and_two_pow_sub_one_eq_mod w.toNat 4
  have hbyte : (InstrBytes.ofWord w).b0.toNat = w.toNat % 256 := by simp [InstrBytes.ofWord]
  simp only [BitVec.toNat_and, BitVec.toNat_setWidth, InstrBytes.toNat_opcode, hbyte]
  change w.toNat &&& 15 = _
  omega

/-- Widening to the 24-bit word tells nibbles apart. -/
theorem setWidth_nibble_inj {x y : BitVec 4} : x.setWidth 24 = y.setWidth 24 ↔ x = y := by
  refine ⟨fun h => ?_, congrArg _⟩
  have hlow : (x.setWidth 24).setWidth 4 = (y.setWidth 24).setWidth 4 := congrArg _ h
  simpa using hlow

/-- Settles O11: the mask leaves the opcode, the opcode gives the mnemonic, and widening loses nothing. -/
theorem opcodeMapIsComplete : Obligations.OpcodeMapIsComplete := by
  refine ⟨fun w m => ?_, mnemonicOfOpcode_eq_some_iff, rfl, rfl, rfl, rfl⟩
  rw [exists_decode_eq_record_iff, and_opcodeMask]
  exact setWidth_nibble_inj.symm

/-! ### Illegal opcodes (30_encoding.md R89) -/

theorem decode_of_opcode_not_mem {b : InstrBytes} (h : b.opcode ∉ [(14 : BitVec 4), 11, 7, 4]) :
    decode b = .illegalOpcode b.opcode := by
  simp only [decode, (mnemonicOfOpcode_eq_none_iff b.opcode).mpr h]

/-- A running step within the program and the budget that fetches an illegal opcode takes that fault. -/
theorem step_of_illegalOpcode {s : State} {op : BitVec 4} (hrun : s.status = .running)
    (hpc : s.pc < s.config.numInstrs) (hbudget : s.stepCount < s.config.stepLimit)
    (hd : decode s.fetch = .illegalOpcode op) : step s = .next (s.raise .illegalOpcode) := by
  obtain ⟨t, ht, hs⟩ := step_spec s
  cases hs with
  | ended hended => exact absurd hrun hended
  | completed _ hend => omega
  | spent _ _ hspent => omega
  | illegal => exact ht
  | raised _ _ _ i hi | retired _ _ _ i hi => cases hd.symm.trans hi

/-- Settles O10: the opcode alone makes the decoding an error, and the step that meets it raises, which
writes the fault record. -/
theorem illegalOpcodesSelectNoInstruction : Obligations.IllegalOpcodesSelectNoInstruction := by
  refine ⟨fun b h => decode_of_opcode_not_mem h, fun s hrun hpc hbudget hop => ?_, by decide, by decide⟩
  exact ⟨_, step_of_illegalOpcode hrun hpc hbudget (decode_of_opcode_not_mem hop),
    rfl, rfl, rfl, rfl, rfl⟩

/-! ### The LOAD_CONST immediate (30_encoding.md R84) -/

/-- The sign rule's mask tests bit 14, which is set from 16384 on. -/
theorem and_signMask_ne_zero_iff (u : BitVec 15) : u &&& 0x4000 ≠ 0 ↔ 16384 ≤ u.toNat := by
  have hmask : (0x4000 : BitVec 15) = BitVec.twoPow 15 14 := by decide
  have hbit : u.getLsbD 14 = decide (16384 ≤ u.toNat) := u.msb_eq_decide
  rw [hmask, BitVec.and_twoPow, hbit]
  by_cases h : 16384 ≤ u.toNat <;> simp [h]

theorem signRule_of_lt {u : BitVec 15} (h : u.toNat < 16384) : signRule u = u.toNat := by
  have hclear : ¬ u &&& 0x4000 ≠ 0 := by rw [and_signMask_ne_zero_iff]; omega
  simp only [signRule, if_neg hclear]

theorem signRule_of_le {u : BitVec 15} (h : 16384 ≤ u.toNat) : signRule u = (u.toNat : Int) - 32768 := by
  simp only [signRule, if_pos ((and_signMask_ne_zero_iff u).mpr h)]

/-- The sign rule is the two's-complement reading of the field. -/
theorem signRule_eq_toInt (u : BitVec 15) : signRule u = u.toInt := by
  rw [BitVec.toInt_eq_toNat_cond]
  by_cases h : u.toNat < 16384
  · rw [signRule_of_lt h, if_pos (by omega)]
  · rw [signRule_of_le (by omega), if_neg (by omega)]
    rfl

theorem signRule_bounds (u : BitVec 15) : -16384 ≤ signRule u ∧ signRule u ≤ 16383 := by
  rw [signRule_eq_toInt]
  exact ⟨u.le_toInt, Int.le_of_lt_add_one u.toInt_lt⟩

/-- The field of a LOAD_CONST record is its operand modulo 2^15, whatever the operand. -/
theorem toNat_operandField_loadConst (v : Int) :
    ((Instr.loadConst v).operandField.toNat : Int) = v % 32768 := by
  simp only [Instr.operandField, BitVec.toNat_ofNat]
  omega

/-- On the operands of valid records the sign rule inverts the encoder's reduction. -/
theorem signRule_operandField_loadConst {v : Int} (hlo : -16384 ≤ v) (hhi : v ≤ 16383) :
    signRule (Instr.loadConst v).operandField = v := by
  have hfield := toNat_operandField_loadConst v
  by_cases h : (Instr.loadConst v).operandField.toNat < 16384
  · rw [signRule_of_lt h]
    omega
  · rw [signRule_of_le (by omega)]
    omega

theorem decode_of_opcode_loadConst {b : InstrBytes} (h : b.opcode = 14) :
    decode b = .record (.loadConst (signRule b.immediateField)) := by
  obtain ⟨i, hd, hm⟩ := (exists_decode_eq_record_iff b .loadConst).mpr h
  obtain ⟨-, hi, -⟩ := decode_eq_record hd
  rw [hd, hi hm]

/-- Settles O7: the field assembled from the three bytes is the unsigned value, and the sign rule splits at
its bit 14. -/
theorem immediateFollowsTheSignRule : Obligations.ImmediateFollowsTheSignRule := by
  refine ⟨fun b hop => ?_, fun u => ⟨signRule_eq_toInt u, signRule_bounds u⟩,
    fun v hlo hhi => ⟨toNat_operandField_loadConst v, signRule_operandField_loadConst hlo hhi⟩⟩
  refine ⟨b.immediateField.toNat, b.toNat_immediateField, b.immediateField.isLt, fun h => ?_, fun h => ?_⟩
  · rw [decode_of_opcode_loadConst hop, signRule_of_lt h]
  · rw [decode_of_opcode_loadConst hop, signRule_of_le h]

end Sys2Proof

/-! SUPPORT. The two directions of the codec together (40_codec.md): what `encode` answers on a valid record,
that decoding packed bytes recovers the record, and the packing in numbers. -/

namespace Sys2Proof

theorem encode_of_wellFormed {i : Instr} (h : i.wellFormed = true) :
    encode i = some (pack i.mnemonic i.operandField) := by
  simp only [encode, h, if_true]

/-! ### The round trip (40_codec.md R118) -/

/-- A valid record is one that `decode` can deliver; the ranges differ for addresses only (R116, R117). -/
theorem Instr.decodable_of_wellFormed {i : Instr} (h : i.wellFormed = true) : i.decodable = true := by
  cases i with
  | loadConst v => exact h
  | readMem addr | writeMem addr | sgn addr => rfl

/-- Packing an address loses none of its twelve bits, whichever format A mnemonic it goes with. -/
@[simp] theorem addressField_pack_setWidth (m : Mnemonic) (addr : Address) :
    (pack m (addr.setWidth 15)).addressField = addr := by
  rw [addressField_pack, BitVec.setWidth_setWidth_of_le _ (by decide), BitVec.setWidth_eq]

/-- The packing is faithful on all decodable records, long addresses included; `encode` refuses those by
its check alone. -/
theorem decode_pack_of_decodable {i : Instr} (h : i.decodable = true) :
    decode (pack i.mnemonic i.operandField) = .record i := by
  cases i with
  | loadConst v =>
    obtain ⟨hlo, hhi⟩ := (immediateInRange_iff v).mp h
    have hop : (pack .loadConst (Instr.loadConst v).operandField).opcode = 14 := opcode_pack ..
    rw [Instr.mnemonic, decode_of_opcode_loadConst hop, immediateField_pack,
      signRule_operandField_loadConst hlo hhi]
  | readMem addr | writeMem addr | sgn addr =>
    simp only [Instr.mnemonic, Instr.operandField, decode, opcode_pack, mnemonicOfOpcode_opcode,
      addressField_pack_setWidth]

/-- Settles O1: `encode` packs a valid record, and the packing is faithful. -/
theorem decodeAfterEncodeIsIdentity : Obligations.DecodeAfterEncodeIsIdentity := fun _ h =>
  ⟨_, encode_of_wellFormed h, decode_pack_of_decodable (Instr.decodable_of_wellFormed h)⟩

/-! ### The packing in numbers (40_codec.md R111) -/

/-- In format A the field is the address itself. -/
theorem toNat_operandField_address {i : Instr} (hm : i.mnemonic ≠ .loadConst) :
    (i.operandField.toNat : Int) = i.operand ∧ i.operandField.toNat < 4096 := by
  cases i with
  | loadConst v => exact absurd rfl hm
  | readMem addr | writeMem addr | sgn addr =>
    have hfield : (addr.setWidth 15).toNat = addr.toNat :=
      BitVec.toNat_setWidth_of_le (by decide)
    exact ⟨congrArg Nat.cast hfield, hfield ▸ addr.isLt⟩

theorem toNat_b2_pack_of_address {m : Mnemonic} (hm : m ≠ .loadConst) (f : BitVec 15) :
    (pack m f).b2.toNat = 0 := by
  rw [b2_pack_of_address m hm]
  rfl

/-- The word form of the packing, `w = op + 16*f`, for a field that the mnemonic's format holds: all fifteen
bits in format I, twelve in format A, whose `b2` stays 0. -/
theorem toNat_word_pack {m : Mnemonic} {f : BitVec 15} (hf : m ≠ .loadConst → f.toNat < 4096) :
    (pack m f).word.toNat = m.opcode.toNat + 16 * f.toNat := by
  rw [InstrBytes.toNat_word, toNat_b0_pack, toNat_b1_pack]
  by_cases hm : m = .loadConst
  · subst hm
    have hfield := f.isLt
    rw [toNat_b2_pack_loadConst]
    omega
  · have hfield := hf hm
    rw [toNat_b2_pack_of_address hm]
    omega

/-- Settles O12: each byte of the packing in numbers, at the number of the record's operand field. -/
theorem encodePacksOpcodeAndField : Obligations.EncodePacksOpcodeAndField := by
  refine ⟨fun i h => ⟨pack i.mnemonic i.operandField, i.operandField.toNat, encode_of_wellFormed h,
    fun hm => ?immediate, fun hm => (toNat_operandField_address hm).1, toNat_b0_pack .., toNat_b1_pack ..,
    fun hm => ?top, fun hm => toNat_b2_pack_of_address hm _,
    toNat_word_pack fun hm => (toNat_operandField_address hm).2⟩,
    by decide⟩
  case immediate =>
    cases i with
    | loadConst v => exact toNat_operandField_loadConst v
    | readMem _ | writeMem _ | sgn _ => cases hm
  case top => rw [hm, toNat_b2_pack_loadConst]

end Sys2Proof

/-! SUPPORT. The bytes of the binary and the number of its records (41_fetch_decode_execute.md R131): what
`byteAt` reads on either side of the binary's end, and which records begin before it. -/

namespace Sys2Proof.Machine

theorem RunConfig.byteAt_of_lt (c : RunConfig) {k : Nat} (h : k < c.prog.length) :
    c.byteAt k = c.prog[k] := List.getD_eq_getElem _ _ h

theorem RunConfig.byteAt_of_length_le (c : RunConfig) {k : Nat} (h : c.prog.length ≤ k) :
    c.byteAt k = 0 := List.getD_eq_default _ _ h

/-- `N` is the ceiling of a third of the length: the least number of records that covers the binary. -/
theorem RunConfig.numInstrs_bounds (c : RunConfig) :
    c.prog.length ≤ 3 * c.numInstrs ∧ 3 * c.numInstrs < c.prog.length + 3 := by
  unfold RunConfig.numInstrs
  omega

/-- The records of the binary are those whose first byte is a real one. -/
theorem RunConfig.lt_numInstrs_iff (c : RunConfig) (i : Nat) :
    i < c.numInstrs ↔ 3 * i < c.prog.length := by
  obtain ⟨hcovers, hleast⟩ := c.numInstrs_bounds
  omega

/-- Settles O15: the padding begins at the binary's end, which lies in the last record by the bounds on `N`;
the length modulo 3 says how many bytes of that record are left. -/
theorem fetchPadsTheLastRecordWithZeros : Obligations.FetchPadsTheLastRecordWithZeros := by
  intro c
  obtain ⟨hcovers, hleast⟩ := c.numInstrs_bounds
  refine ⟨hcovers, hleast, fun k h => c.byteAt_of_lt h, fun k h => c.byteAt_of_length_le h, fun i => rfl,
    fun i => (c.lt_numInstrs_iff i).mp, fun i hnext => ?beforeLast, fun hmod i hi => ?noPadding,
    fun hmod => ?twoPadded, fun hmod => ?onePadded⟩
  case beforeLast => omega
  case noPadding => omega
  case twoPadded =>
    have hend : 3 * (c.numInstrs - 1) + 1 = c.prog.length := by omega
    rw [c.fetch_b1, c.fetch_b2]
    exact ⟨c.byteAt_of_length_le (by omega), c.byteAt_of_length_le (by omega)⟩
  case onePadded =>
    have hend : 3 * (c.numInstrs - 1) + 2 = c.prog.length := by omega
    rw [c.fetch_b2]
    exact ⟨by omega, c.byteAt_of_length_le (by omega)⟩

end Sys2Proof.Machine

/-! SUPPORT. LOAD_CONST (42_stack_memory_instructions.md R151): the state an instruction leaves whose effect is
one push, and the answer of the one instruction that always has it. -/

namespace Sys2Proof.Machine

/-- An instruction that pushes one entry and retires changes the stack, the counters and the trace only. -/
theorem State.retire_push (s : State) (v : Int) (i : Instr) :
    (s.push v).retire i =
      { s with
        stack := v :: s.stack, pc := s.pc + 1, stepCount := s.stepCount + 1,
        trace := s.trace ++ [i] } := rfl

theorem State.memRead_retire_push (s : State) (v : Int) (i : Instr) (a : Nat) :
    ((s.push v).retire i).memRead a = s.memRead a := by
  simp only [State.memRead, State.retire_mem, State.push_mem]

/-- LOAD_CONST has its effect in every state: it has no guard. -/
theorem exec_loadConst (v : Int) (s : State) :
    exec (.loadConst v) s = .next ((s.push v).retire (.loadConst v)) :=
  exec_of_effect (.loadConst v)

/-- Settles O18: the next state from LOAD_CONST's effect, which no guard withholds; the operand's range from
the sign rule's, which every field obeys. -/
theorem loadConstPushesItsConstant : Obligations.LoadConstPushesItsConstant := by
  refine ⟨fun v s => ⟨_, exec_loadConst v s, s.retire_push v _, s.memRead_retire_push v _⟩,
    fun b hop => ⟨decode_of_opcode_loadConst hop, signRule_bounds b.immediateField⟩, ?allOnes⟩
  case allOnes => decide

end Sys2Proof.Machine

/-! SUPPORT. One pass of the sequencer (41_fetch_decode_execute.md R134, R135): what a step answers where its
guards hold, that this inverts `step_cases`, and what the step keeps whatever it does. -/

namespace Sys2Proof.Machine

/-! ### The sequencer's tests -/

theorem State.pass_of_not_running {s : State} (h : s.status ≠ .running) : s.pass = .ended := by
  unfold State.pass
  cases hs : s.status with
  | running => exact absurd hs h
  | completed | stepLimit | fault => rfl

theorem State.pass_of_atEnd {s : State} (h : s.status = .running) (hpc : s.config.numInstrs ≤ s.pc) :
    s.pass = .complete := by
  simp [State.pass, State.atEnd, h, hpc]

theorem State.pass_of_budgetSpent {s : State} (h : s.status = .running)
    (hpc : s.pc < s.config.numInstrs) (hstep : s.config.stepLimit ≤ s.stepCount) :
    s.pass = .spend := by
  simp [State.pass, State.atEnd, State.budgetSpent, h, hpc, hstep]

theorem State.pass_of_ready {s : State} (h : s.status = .running) (hpc : s.pc < s.config.numInstrs)
    (hstep : s.stepCount < s.config.stepLimit) : s.pass = .step := by
  simp [State.pass, State.atEnd, State.budgetSpent, h, Nat.not_le.mpr hpc, Nat.not_le.mpr hstep]

/-! ### The step -/

theorem step_of_not_running {s : State} (h : s.status ≠ .running) : step s = .next s := by
  simp only [step, State.sequence, State.pass_of_not_running h]

theorem step_of_atEnd {s : State} (h : s.status = .running) (hpc : s.config.numInstrs ≤ s.pc) :
    step s = .next { s with status := .completed } := by
  simp only [step, State.sequence, State.pass_of_atEnd h hpc]

theorem step_of_budgetSpent {s : State} (h : s.status = .running) (hpc : s.pc < s.config.numInstrs)
    (hstep : s.config.stepLimit ≤ s.stepCount) : step s = .next { s with status := .stepLimit } := by
  simp only [step, State.sequence, State.pass_of_budgetSpent h hpc hstep]

/-- A running state within the program and the budget runs what it fetches. -/
theorem step_of_record {s : State} {i : Instr} (h : s.status = .running)
    (hpc : s.pc < s.config.numInstrs) (hstep : s.stepCount < s.config.stepLimit)
    (hd : decode s.fetch = .record i) : step s = exec i s := by
  simp only [step, State.sequence, State.pass_of_ready h hpc hstep, State.fetchDecodeExecute, hd]

/-- The guards of `Stepped` determine the step: `step_cases` the other way round. -/
theorem Stepped.step_eq {s t : State} (h : Stepped s t) : step s = .next t := by
  cases h with
  | ended h => exact step_of_not_running h
  | completed h hpc => exact step_of_atEnd h hpc
  | spent h hpc hstep => exact step_of_budgetSpent h hpc hstep
  | illegal h hpc hstep op hd => exact step_of_illegalOpcode h hpc hstep hd
  | raised h hpc hstep i hd r hr => exact (step_of_record h hpc hstep hd).trans (exec_of_raises hr)
  | retired h hpc hstep i hd u hu => exact (step_of_record h hpc hstep hd).trans (exec_of_effect hu)

/-- Settles O29: the tests let the step through, and it decodes now. -/
theorem stepRunsTheDecodedInstruction : Obligations.StepRunsTheDecodedInstruction :=
  fun _ _ h hpc hstep hd => step_of_record h hpc hstep hd

/-- Settles O31, one clause a test. -/
theorem terminationTestsChangeStatusOnly : Obligations.TerminationTestsChangeStatusOnly :=
  fun _ h => ⟨fun hpc => step_of_atEnd h hpc, fun hpc hstep => step_of_budgetSpent h hpc hstep⟩

/-- The loop leaves a state that has ended at once. -/
theorem State.loop_of_not_running {s : State} (h : s.status ≠ .running) (k : Nat) :
    s.loop k = .next s := by
  cases k with
  | zero => rfl
  | succ k => simp only [State.loop, if_neg h]

/-- Settles O32: the pass does nothing to a state that has ended, and the loop makes no pass over it. -/
theorem terminalStatesDoNotChange : Obligations.TerminalStatesDoNotChange :=
  fun _ h => ⟨step_of_not_running h, State.loop_of_not_running h⟩

/-- The loop answers a next state, since every pass does. -/
theorem State.loop_answers (k : Nat) (s : State) : ∃ t, s.loop k = .next t := by
  induction k generalizing s with
  | zero => exact ⟨s, rfl⟩
  | succ k ih =>
    by_cases hr : s.status = .running
    · obtain ⟨u, hu, _⟩ := step_spec s
      rw [State.loop_succ_of_running k hr hu]
      exact ih u
    · exact ⟨s, State.loop_of_not_running hr _⟩

/-- Settles O33: the step and the instruction by their lemmas of what they can do, the loop by induction. -/
theorem everyStepAnswersANextState : Obligations.EveryStepAnswersANextState := by
  refine ⟨fun s => ?_, fun i s => ?_, State.loop_answers⟩
  · obtain ⟨t, ht, _⟩ := step_spec s
    exact ⟨t, ht⟩
  · rcases exec_cases i s with ⟨u, _, hx⟩ | ⟨r, _, hx⟩ <;> exact ⟨_, hx⟩

/-- An invariant of the step holds of what the loop ends in. -/
theorem State.loop_invariant {P : State → Prop} (keeps : ∀ s t, P s → step s = .next t → P t)
    {k : Nat} {s t : State} (hs : P s) (h : s.loop k = .next t) : P t :=
  State.loop_induction (fun s t => P s → P t) (fun _ hp => hp)
    (fun s t _ hstep hrest hp => hrest (keeps s t hp hstep)) k s t h hs

/-! ### `halted` (10_state.md R28) -/

theorem Effect.halted_eq {s u : State} {i : Instr} (h : Effect s i u) : u.halted = s.halted := by
  rw [h.frame]

theorem step_halted_eq {s t : State} (h : step s = .next t) : t.halted = s.halted := by
  cases step_cases h with
  | ended | completed | spent | illegal | raised => rfl
  | retired _ _ _ i _ u hu => exact (u.retire_halted i).trans hu.halted_eq

/-- Settles O28: reset has it false, and no step writes it. -/
theorem noStepSetsHalted : Obligations.NoStepSetsHalted :=
  ⟨fun _ _ h => step_halted_eq h, fun _ _ _ h =>
    State.loop_invariant (P := fun s => s.halted = false)
      (fun _ _ hs hstep => (step_halted_eq hstep).trans hs) rfl h⟩

/-! ### The canonical form of data memory (10_state.md R33) -/

theorem Effect.mem_wf {s u : State} {i : Instr} (h : Effect s i u) (hm : s.mem.wf) : u.mem.wf := by
  cases h with
  | loadConst | readMem | sgn => exact hm
  | writeMem addr _ v => exact Memory.write_wf hm addr.toNat v

theorem step_mem_wf {s t : State} (hm : s.mem.wf) (h : step s = .next t) : t.mem.wf := by
  cases step_cases h with
  | ended | completed | spent | illegal | raised => exact hm
  | retired _ _ _ i _ u hu => exact hu.mem_wf hm

/-- Settles O36: a write keeps the form, and nothing else touches the list. -/
theorem everyStepKeepsMemoryCanonical : Obligations.EveryStepKeepsMemoryCanonical :=
  ⟨fun _ _ hm h => step_mem_wf hm h, State.resetWith_mem_wf, State.resetWith_mem_wf .default⟩

/-! ### The counters and the trace -/

theorem Effect.stepCount_eq {s u : State} {i : Instr} (h : Effect s i u) :
    u.stepCount = s.stepCount := by
  rw [h.frame]

theorem Effect.trace_eq {s u : State} {i : Instr} (h : Effect s i u) : u.trace = s.trace := by
  rw [h.frame]

theorem Effect.fault_eq {s u : State} {i : Instr} (h : Effect s i u) : u.fault = s.fault := by
  rw [h.frame]

end Sys2Proof.Machine

/-! SUPPORT. The invariants of every reachable state (41_fetch_decode_execute.md R141, 10_state.md R34): what
one instruction does to each of them, then the step. -/

namespace Sys2Proof

/-- `decode` delivers only the records it can: the sign rule's range bounds the immediate (R116). -/
theorem decodable_of_decode {b : InstrBytes} {i : Instr} (h : decode b = .record i) :
    i.decodable = true := by
  cases i with
  | loadConst v =>
    obtain ⟨-, hv, -⟩ := decode_eq_record h
    obtain rfl := Instr.loadConst.inj (hv rfl)
    exact (immediateInRange_iff _).mpr (signRule_bounds b.immediateField)
  | readMem addr | writeMem addr | sgn addr => rfl

end Sys2Proof

namespace Sys2Proof.Machine

/-! ### Values (10_state.md R34) -/

theorem valueInRange_sign (v : Int) : valueInRange (Int.sign v) := by
  rcases Int.sign_trichotomy v with h | h | h <;> rw [h] <;> constructor <;> decide

/-- A listed cell holds a value in range, and so does one that reads as unwritten. -/
theorem State.MemorySound.memRead_in_range {s : State} (h : s.MemorySound) (a : Nat) :
    valueInRange (s.memRead a) := by
  rcases s.mem.read_cases a with hr | hr
  · rw [State.memRead, hr]
    constructor <;> decide
  · exact h.values_in_range _ hr

/-- What a decoded instruction puts on the stack is in range: an immediate, a cell or a sign. -/
theorem Effect.stack_in_range {s u : State} {i : Instr} (h : Effect s i u) (hi : i.decodable = true)
    (hm : s.MemorySound) (hs : ∀ v ∈ s.stack, valueInRange v) : ∀ v ∈ u.stack, valueInRange v := by
  cases h with
  | loadConst v => exact List.forall_mem_cons.mpr ⟨(immediateInRange_iff v).mp hi, hs⟩
  | readMem addr => exact List.forall_mem_cons.mpr ⟨hm.memRead_in_range _, hs⟩
  | writeMem addr _ v rest hstack =>
    rw [hstack] at hs
    exact (List.forall_mem_cons.mp hs).2
  | sgn addr => exact List.forall_mem_cons.mpr ⟨valueInRange_sign _, hs⟩

/-- The one cell written exists and gets a value from the stack. -/
theorem Effect.memorySound {s u : State} {i : Instr} (h : Effect s i u) (hm : s.MemorySound)
    (hs : ∀ v ∈ s.stack, valueInRange v) : u.MemorySound := by
  have hwf := h.mem_wf hm.canonical
  cases h with
  | loadConst | readMem | sgn => exact ⟨hwf, hm.cells_exist, hm.values_in_range⟩
  | writeMem addr hin v rest hstack =>
    have hv : valueInRange v := hs v (hstack ▸ List.mem_cons_self)
    refine ⟨hwf, fun p hp => ?_, fun p hp => ?_⟩ <;> rcases Memory.mem_write hp with ⟨rfl, _⟩ | hp
    · exact hin
    · exact hm.cells_exist p hp
    · exact hv
    · exact hm.values_in_range p hp

/-! ### Counters, trace, status -/

theorem Effect.depth_le {s u : State} {i : Instr} (h : Effect s i u) : u.depth ≤ s.depth + 1 := by
  cases h with
  | loadConst | readMem | sgn => exact Nat.le_refl _
  | writeMem addr _ v rest hstack => simp [State.depth, hstack]; omega

/-- A step within its guards keeps the counters equal and bounded. -/
theorem Effect.countersSound {s u : State} {i : Instr} (h : Effect s i u) (hc : s.CountersSound)
    (hpc : s.pc < s.config.numInstrs) (hstep : s.stepCount < s.config.stepLimit) :
    (u.retire i).CountersSound := by
  have hdepth := h.depth_le
  have hdepth' := hc.depth_le
  have heq := hc.pc_eq_step
  refine ⟨?_, ?_, ?_, ?_, h.halted_eq.trans hc.halted_false⟩
  · rw [State.retire_pc, State.retire_stepCount, h.pc_eq, h.stepCount_eq, heq]
  · rw [State.retire_pc, State.retire_config, h.pc_eq, h.config_eq]
    exact hpc
  · rw [State.retire_stepCount, State.retire_config, h.stepCount_eq, h.config_eq]
    exact hstep
  · have hsame : (u.retire i).depth = u.depth := rfl
    rw [hsame, State.retire_stepCount, h.stepCount_eq]
    omega

/-- The record that joins the trace is the decoding at its own index, since the counters agree. -/
theorem Effect.traceSound {s u : State} {i : Instr} (h : Effect s i u) (ht : s.TraceSound)
    (hc : s.pc = s.stepCount) (hd : decode s.fetch = .record i) : (u.retire i).TraceSound := by
  refine ⟨?_, fun k j hk => ?_⟩
  · simp [h.trace_eq, h.stepCount_eq, ht.length_eq]
  · rw [State.retire_trace, h.trace_eq] at hk
    rw [State.retire_config, h.config_eq]
    rcases Nat.lt_trichotomy k s.trace.length with hlt | rfl | hgt
    · rw [List.getElem?_append_left hlt] at hk
      exact ht.records_decode k j hk
    · simp only [List.getElem?_concat_length, Option.some.injEq] at hk
      subst hk
      rw [ht.length_eq, ← hc]
      exact hd
    · rw [List.getElem?_eq_none (by simp; omega)] at hk
      cases hk

/-- Before the run ends there is nothing to record but that no fault has been. -/
theorem State.StatusSound.of_running {s : State} (h : s.status = .running)
    (hcause : s.fault.cause = .none) : s.StatusSound where
  fault_iff_cause := by simp [h, hcause]
  completed_at_end := by simp [h]
  step_limit_spent := by simp [h]
  fault_recorded := by simp [h]

theorem State.StatusSound.cause_eq_none {s : State} (hs : s.StatusSound) (h : s.status = .running) :
    s.fault.cause = .none := by
  by_contra hne
  cases h.symm.trans (hs.fault_iff_cause.mpr hne)

theorem State.raise_statusSound {s : State} (r : Raised) (hpc : s.pc < s.config.numInstrs)
    (hstep : s.stepCount < s.config.stepLimit) : (s.raise r).StatusSound where
  fault_iff_cause := by simp
  completed_at_end := by simp
  step_limit_spent := by simp
  fault_recorded _ := ⟨rfl, rfl, rfl, hpc, hstep⟩

/-- The invariants outside the status do not speak of it, nor of the fault record. -/
theorem State.Sound.with_status {s : State} (h : s.Sound) (status : Status) (fault : FaultRecord)
    (hs : ({ s with status := status, fault := fault } : State).StatusSound) :
    ({ s with status := status, fault := fault } : State).Sound where
  memory := ⟨h.memory.canonical, h.memory.cells_exist, h.memory.values_in_range⟩
  stack_in_range := h.stack_in_range
  counters := ⟨h.counters.pc_eq_step, h.counters.pc_le, h.counters.step_le, h.counters.depth_le,
    h.counters.halted_false⟩
  trace := ⟨h.trace.length_eq, h.trace.records_decode⟩
  status := hs

/-! ### The step -/

theorem State.resetWith_sound (c : RunConfig) : (State.resetWith c).Sound where
  memory := ⟨State.resetWith_mem_wf c, by simp, by simp⟩
  stack_in_range := by simp
  counters := ⟨rfl, Nat.zero_le _, Nat.zero_le _, Nat.le_refl _, rfl⟩
  trace := ⟨rfl, by simp⟩
  status := .of_running rfl rfl

/-- Settles O37: at reset there is nothing yet to be out of range. -/
theorem resetStateIsSound : Obligations.ResetStateIsSound :=
  ⟨State.resetWith_sound, State.resetWith_sound .default⟩

theorem Effect.retire_sound {s u : State} {i : Instr} (h : Effect s i u) (hs : s.Sound)
    (hrun : s.status = .running) (hpc : s.pc < s.config.numInstrs)
    (hstep : s.stepCount < s.config.stepLimit) (hd : decode s.fetch = .record i) :
    (u.retire i).Sound where
  memory :=
    have hm := h.memorySound hs.memory hs.stack_in_range
    ⟨hm.canonical, hm.cells_exist, hm.values_in_range⟩
  stack_in_range := h.stack_in_range (decodable_of_decode hd) hs.memory hs.stack_in_range
  counters := h.countersSound hs.counters hpc hstep
  trace := h.traceSound hs.trace hs.counters.pc_eq_step hd
  status := .of_running (h.status_eq.trans hrun)
    ((congrArg FaultRecord.cause h.fault_eq).trans (hs.status.cause_eq_none hrun))

theorem step_sound {s t : State} (hs : s.Sound) (h : step s = .next t) : t.Sound := by
  cases step_cases h with
  | ended => exact hs
  | completed hrun hpc =>
    have hcause := hs.status.cause_eq_none hrun
    exact hs.with_status .completed s.fault ⟨by simp [hcause], fun _ => hpc, by simp, by simp⟩
  | spent hrun hpc hstep =>
    have hcause := hs.status.cause_eq_none hrun
    exact hs.with_status .stepLimit s.fault ⟨by simp [hcause], by simp, fun _ => ⟨hstep, hpc⟩, by simp⟩
  | illegal _ hpc hstep => exact hs.with_status _ _ (s.raise_statusSound .illegalOpcode hpc hstep)
  | raised _ hpc hstep i _ r => exact hs.with_status _ _ (s.raise_statusSound r hpc hstep)
  | retired hrun hpc hstep i hd u hu => exact hu.retire_sound hs hrun hpc hstep hd

/-- Settles O38: an instruction keeps each invariant by its effect, and the other passes write the status and
the fault record only. -/
theorem everyStepKeepsTheStateSound : Obligations.EveryStepKeepsTheStateSound :=
  fun _ _ hs h => step_sound hs h

/-! ### The trace replayed (20_memory.md R61) -/

/-- One instruction's effect on stack and cells is its reading over a plain stack and array. -/
theorem Effect.replayInstr_eq {s u : State} {i : Instr} (h : Effect s i u) (hm : s.mem.wf) :
    (u.stack, u.memRead) = replayInstr (s.stack, s.memRead) i := by
  cases h with
  | loadConst | readMem | sgn => rfl
  | writeMem addr _ v rest hstack =>
    rw [hstack]
    refine Prod.ext rfl (funext fun a => ?_)
    by_cases ha : a = addr.toNat
    · subst ha
      simp [replayInstr, State.memRead, Memory.read_write_same hm]
    · simp [replayInstr, State.memRead, ha]

/-- A longer trace replayed is the shorter one replayed and then its last record. -/
theorem replay_concat (trace : List Instr) (i : Instr) :
    replay (trace ++ [i]) = replayInstr (replay trace) i := List.foldl_concat ..

theorem Effect.retire_isReplay {s u : State} {i : Instr} (h : Effect s i u) (hm : s.mem.wf)
    (hs : s.IsReplay) : (u.retire i).IsReplay := by
  calc (u.stack, u.memRead)
      = replayInstr (s.stack, s.memRead) i := h.replayInstr_eq hm
    _ = replayInstr (replay s.trace) i := by rw [hs]
    _ = replay (u.trace ++ [i]) := by rw [replay_concat, h.trace_eq]

/-- Settles O39: only retiring touches stack, cells and trace, and it appends the record of its effect. -/
theorem stackAndMemoryAreTheTraceReplayed : Obligations.StackAndMemoryAreTheTraceReplayed := by
  refine ⟨fun s t hm hs h => ?_, fun c => rfl⟩
  cases step_cases h with
  | ended | completed | spent | illegal | raised => exact hs
  | retired _ _ _ i _ u hu => exact hu.retire_isReplay hm hs

end Sys2Proof.Machine

/-! SUPPORT. The data-memory instructions (42_stack_memory_instructions.md section 2) and the faults
(60_exceptions.md): which instruction a word with each format A opcode is, what it answers on either side of
the bounds check, and what a fault records. -/

namespace Sys2Proof

theorem decode_of_opcode_readMem {b : InstrBytes} (h : b.opcode = 11) :
    decode b = .record (.readMem b.addressField) := by
  simp only [decode, (mnemonicOfOpcode_eq_some_iff b.opcode .readMem).mpr h]

theorem decode_of_opcode_writeMem {b : InstrBytes} (h : b.opcode = 7) :
    decode b = .record (.writeMem b.addressField) := by
  simp only [decode, (mnemonicOfOpcode_eq_some_iff b.opcode .writeMem).mpr h]

theorem decode_of_opcode_sgn {b : InstrBytes} (h : b.opcode = 4) :
    decode b = .record (.sgn b.addressField) := by
  simp only [decode, (mnemonicOfOpcode_eq_some_iff b.opcode .sgn).mpr h]

/-- A word's bytes are the ones it was put together from (R7). -/
@[simp] theorem InstrBytes.ofWord_word (b : InstrBytes) : InstrBytes.ofWord b.word = b := by
  have hword := b.toNat_word
  have h0 := b.b0.isLt
  have h1 := b.b1.isLt
  have h2 := b.b2.isLt
  apply InstrBytes_ext <;> apply BitVec.eq_of_toNat_eq <;>
    simp only [InstrBytes.ofWord, BitVec.extractLsb'_toNat, Nat.shiftRight_eq_div_pow, hword] <;> omega

end Sys2Proof

namespace Sys2Proof.Machine

/-! ### READ_MEM, WRITE_MEM and SGN -/

/-- Settles O19: the effect below `MEM_LEN`, the raise from there on. -/
theorem readMemPushesTheCell : Obligations.ReadMemPushesTheCell :=
  ⟨fun addr s h => ⟨_, exec_of_effect (.readMem addr h), s.retire_push _ _, s.memRead_retire_push _ _⟩,
    fun addr s h => ⟨exec_of_raises (.readMem addr h), s.raise_stack _⟩,
    fun _ hop => decode_of_opcode_readMem hop, fun _ _ => rfl⟩

/-- Settles O20: the effect writes one cell of a canonical memory; each raise under its own guard. -/
theorem writeMemPopsIntoTheCell : Obligations.WriteMemPopsIntoTheCell :=
  ⟨fun addr s v rest hm h hs =>
    ⟨_, exec_of_effect (.writeMem addr h v rest hs), rfl, Memory.read_write_same hm addr.toNat v,
      fun _ ha => Memory.read_write_other s.mem v ha⟩,
    fun addr _ h => exec_of_raises (.writeMem addr h),
    fun addr _ h hs => exec_of_raises (.underflow addr h hs)⟩

/-- Settles O22: as READ_MEM, with the sign of the cell for the cell. -/
theorem sgnPushesTheSignOfTheCell : Obligations.SgnPushesTheSignOfTheCell := by
  refine ⟨fun addr s h => ?inRange,
    fun addr s h => ⟨exec_of_raises (.sgn addr h), s.raise_stack _⟩, fun _ hop => decode_of_opcode_sgn hop⟩
  case inRange =>
    exact ⟨Int.sign (s.memRead addr.toNat), _, exec_of_effect (.sgn addr h), Int.sign_eq_one_of_pos,
      Int.sign_eq_neg_one_of_neg, Int.sign_eq_zero_iff_zero.mpr, s.retire_push _ _,
      s.memRead_retire_push _ _⟩

/-! ### The bounds check (20_memory.md R55) -/

/-- An address that does not exist is raised, whatever the instruction and the stack. -/
theorem exec_of_memLen_le {i : Instr} {s : State} (hi : i.mnemonic ≠ .loadConst)
    (h : s.config.memLen.val ≤ i.operand) :
    ∃ addr : Address, (addr.toNat : Int) = i.operand ∧
      exec i s = .next (s.raise (.addressOutOfRange addr)) := by
  cases i with
  | loadConst v => exact absurd rfl hi
  | readMem addr => exact ⟨addr, rfl, exec_of_raises (.readMem addr (Int.ofNat_le.mp h))⟩
  | writeMem addr => exact ⟨addr, rfl, exec_of_raises (.writeMem addr (Int.ofNat_le.mp h))⟩
  | sgn addr => exact ⟨addr, rfl, exec_of_raises (.sgn addr (Int.ofNat_le.mp h))⟩

/-- In range the address is not what is raised. -/
theorem Raises.cause_ne_addressOutOfRange {s : State} {i : Instr} {r : Raised} (hr : Raises s i r)
    (h : i.operand < s.config.memLen.val) : r.cause ≠ .addressOutOfRange := by
  cases hr with
  | readMem addr h' | writeMem addr h' | sgn addr h' => exact absurd (Int.ofNat_lt.mp h) (by omega)
  | underflow => simp [Raised.cause]

/-- No address from 2048 on exists (decision D2). -/
theorem RunConfig.memLen_le (c : RunConfig) : c.memLen.val ≤ 2048 := Nat.le_of_lt_succ c.memLen.isLt

/-- Settles O23: the raise leaves all but status and record; in range an instruction has its effect, which
leaves the status, or raises something else. -/
theorem boundsCheckPrecedesEveryAccess : Obligations.BoundsCheckPrecedesEveryAccess := by
  refine ⟨fun addr s i hi => ?check, fun s a b v hm => ⟨Memory.read_write_same hm a v,
    fun hb => Memory.read_write_other s.mem v hb⟩, fun s a v => ⟨_, rfl⟩⟩
  case check =>
    have hmem := s.config.memLen_le
    obtain ⟨hmn, hop⟩ : i.mnemonic ≠ .loadConst ∧ i.operand = addr.toNat := by
      simp only [List.mem_cons, List.not_mem_nil, or_false] at hi
      rcases hi with rfl | rfl | rfl <;> exact ⟨by simp [Instr.mnemonic], rfl⟩
    by_cases h : s.config.memLen.val ≤ addr.toNat
    · obtain ⟨_, _, hx⟩ := exec_of_memLen_le hmn (hop ▸ Int.ofNat_le.mpr h)
      exact ⟨_, hx, fun _ => ⟨rfl, rfl⟩, fun hlt => absurd h (Nat.not_le.mpr hlt), fun _ => ⟨rfl, rfl⟩⟩
    · rcases exec_cases i s with ⟨u, hu, hx⟩ | ⟨r, hr, hx⟩ <;>
        refine ⟨_, hx, fun hle => absurd hle h, ?_, fun hle => absurd (hmem.trans hle) h⟩
      · exact fun _ hfault hne => absurd (hu.status_eq.symm.trans hfault) hne
      · exact fun hlt _ _ => hr.cause_ne_addressOutOfRange (hop ▸ Int.ofNat_lt.mpr hlt)

/-! ### What a fault records (60_exceptions.md R180) -/

/-- Settles O21: the record's operand is the one the raise carries, or the free value. -/
theorem raiseRecordsTheFaultAndNothingElse : Obligations.RaiseRecordsTheFaultAndNothingElse := by
  intro s r
  refine ⟨r.recordedOperand s.fetch.word s.stepCount, rfl, ?_, ?_, ?_⟩
  · rintro addr rfl
    exact ⟨rfl, rfl⟩
  · rintro addr rfl
    exact ⟨rfl, rfl⟩
  · rintro rfl
    rfl

/-- IllegalOpcode is no fault of a decoded instruction. -/
theorem Raises.cause_ne_illegalOpcode {s : State} {i : Instr} {r : Raised} (hr : Raises s i r) :
    r.cause ≠ .illegalOpcode := by
  cases hr <;> simp [Raised.cause]

/-- The operand recorded is the address of the instruction that faults, a format A one. -/
theorem Raises.instr_eq {s : State} {i : Instr} {r : Raised} (hr : Raises s i r) (word : InstrWord)
    (k : Nat) : i = .readMem (r.recordedOperand word k) ∨ i = .writeMem (r.recordedOperand word k) ∨
      i = .sgn (r.recordedOperand word k) := by
  cases hr with
  | readMem addr => exact .inl rfl
  | writeMem addr | underflow addr => exact .inr (.inl rfl)
  | sgn addr => exact .inr (.inr rfl)

/-- Settles O34: the expected cause is what `Raises` says where the instruction raises, and none where it has
its effect. -/
theorem faultsArePreciseAndPrioritised : Obligations.FaultsArePreciseAndPrioritised := by
  intro s hrun hpc hstep
  cases hd : decode s.fetch with
  | illegalOpcode op =>
    exact ⟨_, .illegalOpcode, step_of_illegalOpcode hrun hpc hstep hd, rfl, by simp,
      fun _ => ⟨rfl, rfl, rfl, rfl, rfl, fun hne => absurd rfl hne⟩⟩
  | record i =>
    rw [step_of_record hrun hpc hstep hd]
    rcases exec_cases i s with ⟨u, hu, hx⟩ | ⟨r, hr, hx⟩
    · refine ⟨_, .none, hx, ?_, fun _ => ⟨hu.status_eq.trans hrun, hu.fault_eq⟩, fun h => absurd rfl h⟩
      cases hu with
      | loadConst => rfl
      | readMem addr h | sgn addr h => exact (if_neg (Nat.not_le.mpr h)).symm
      | writeMem addr h v rest hs => simp [Nat.not_le.mpr h, hs]
    · refine ⟨_, r.cause, hx, ?_, fun h => absurd h r.cause_ne_none,
        fun _ => ⟨rfl, rfl, rfl, rfl, rfl, fun _ => ?_⟩⟩
      · cases hr with
        | readMem addr h | writeMem addr h | sgn addr h => exact (if_pos h).symm
        | underflow addr h hs => simp [Nat.not_le.mpr h, hs, Raised.cause]
      · simp only [Decoded.record.injEq]
        exact hr.instr_eq s.fetch.word s.stepCount

/-- The fault word is the fetched one, so its opcode is the one that was decoded. -/
theorem State.mnemonic_faultRecord (s : State) (r : Raised) :
    (s.faultRecord r).mnemonic = mnemonicOfOpcode s.fetch.opcode := by
  rw [FaultRecord.mnemonic, State.faultRecord_word, InstrBytes.ofWord_word]

/-- Settles O35: only the two raising passes leave a FAULT behind a running state. -/
theorem faultWordNamesTheInstruction : Obligations.FaultWordNamesTheInstruction := by
  intro s t hrun h hfault
  cases step_cases h with
  | ended hended => exact absurd hrun hended
  | completed | spent => cases hfault
  | illegal _ _ _ op hd =>
    exact ⟨fun _ => (s.mnemonic_faultRecord _).trans (decode_eq_illegalOpcode hd).2,
      fun hne => absurd rfl hne⟩
  | raised _ _ _ i hd r hr =>
    exact ⟨fun hc => absurd hc hr.cause_ne_illegalOpcode,
      fun _ => ⟨i, hd, (s.mnemonic_faultRecord r).trans (decode_eq_record hd).1⟩⟩
  | retired _ _ _ i _ u hu => cases (hu.status_eq.trans hrun).symm.trans hfault

/-! ### The host's word (log 9) -/

/-- The bytes placed begin at offset `3 * i`, whether the binary reached that far or was extended. -/
theorem length_before_placeInstr (prog : List Byte) (i : Nat) :
    (prog.take (3 * i) ++ List.replicate (3 * i - prog.length) 0).length = 3 * i := by
  simp only [List.length_append, List.length_take, List.length_replicate]
  omega

theorem getD_placeInstr (prog : List Byte) (i : Nat) (b : InstrBytes) (k : Nat) :
    (placeInstr prog i b).getD (3 * i + k) 0 =
      (b.b0 :: b.b1 :: b.b2 :: prog.drop (3 * i + 3)).getD k 0 := by
  have hlen := length_before_placeInstr prog i
  rw [placeInstr, List.getD_append_right _ _ _ _ (by omega), hlen, Nat.add_sub_cancel_left]

theorem State.fetch_withInstrBytes (s : State) (b : InstrBytes) : (s.withInstrBytes b).fetch = b :=
  InstrBytes_ext (getD_placeInstr s.config.prog s.pc b 0) (getD_placeInstr s.config.prog s.pc b 1)
    (getD_placeInstr s.config.prog s.pc b 2)

theorem State.pc_lt_withInstrBytes (s : State) (b : InstrBytes) :
    s.pc < (s.withInstrBytes b).config.numInstrs := by
  have hlen := length_before_placeInstr s.config.prog s.pc
  rw [RunConfig.lt_numInstrs_iff, State.withInstrBytes_prog, placeInstr, List.length_append, hlen,
    List.length_cons]
  omega

theorem decodeTableWord_eq_some {nbits w : Nat} {i : Instr} (h : decodeTableWord nbits w = some i) :
    decode (tableBytes nbits w) = .record i := by
  unfold decodeTableWord at h
  cases hd : decode (tableBytes nbits w) with
  | record j => simpa [hd, Decoded.toOption] using h
  | illegalOpcode op => simp [hd, Decoded.toOption] at h

/-- Settles O30: with the word placed the state is running, within its program and its budget, and fetches
that word. -/
theorem placedWordRunsNext : Obligations.PlacedWordRunsNext := by
  intro s nbits w i h
  refine step_of_record rfl (s.pc_lt_withInstrBytes _) ?_ ?_
  · exact Nat.lt_of_lt_of_le (Nat.lt_succ_self _) (Nat.le_max_right _ _)
  · rw [State.withFetchWord, State.fetch_withInstrBytes]
    exact decodeTableWord_eq_some h

end Sys2Proof.Machine

/-! SUPPORT. The codec on every word (30_encoding.md section 4, 40_codec.md): the fields as bits of the 24-bit
word, what packing a decoded record gives back, and which words are canonical. -/

namespace Sys2Proof

open Sys2Proof.Machine

/-! ### The fields in the 24-bit word (30_encoding.md table T92) -/

theorem InstrBytes.toNat_ofWord (w : InstrWord) :
    (InstrBytes.ofWord w).b0.toNat = w.toNat % 256 ∧
    (InstrBytes.ofWord w).b1.toNat = w.toNat / 256 % 256 ∧
    (InstrBytes.ofWord w).b2.toNat = w.toNat / 65536 % 256 := by
  simp [InstrBytes.ofWord, BitVec.extractLsb'_toNat, Nat.shiftRight_eq_div_pow]

theorem InstrBytes.opcode_ofWord (w : InstrWord) :
    (InstrBytes.ofWord w).opcode = w.extractLsb' 0 4 := by
  obtain ⟨h0, _, _⟩ := InstrBytes.toNat_ofWord w
  apply BitVec.eq_of_toNat_eq
  rw [InstrBytes.toNat_opcode, BitVec.extractLsb'_toNat, Nat.shiftRight_eq_div_pow, h0]
  omega

theorem InstrBytes.immediateField_ofWord (w : InstrWord) :
    (InstrBytes.ofWord w).immediateField = w.extractLsb' 4 15 := by
  obtain ⟨h0, h1, h2⟩ := InstrBytes.toNat_ofWord w
  apply BitVec.eq_of_toNat_eq
  rw [InstrBytes.toNat_immediateField, BitVec.extractLsb'_toNat, Nat.shiftRight_eq_div_pow, h0, h1, h2]
  omega

theorem InstrBytes.addressField_ofWord (w : InstrWord) :
    (InstrBytes.ofWord w).addressField = w.extractLsb' 4 12 := by
  obtain ⟨h0, h1, _⟩ := InstrBytes.toNat_ofWord w
  apply BitVec.eq_of_toNat_eq
  rw [InstrBytes.toNat_addressField, BitVec.extractLsb'_toNat, Nat.shiftRight_eq_div_pow, h0, h1]
  omega

/-- Settles O6: the opcode's nibble chooses the row, the row's field is read from the word. -/
theorem everyWordDecodesAsTabulated : Obligations.EveryWordDecodesAsTabulated := by
  intro w
  rw [← InstrBytes.opcode_ofWord, ← InstrBytes.immediateField_ofWord, ← InstrBytes.addressField_ofWord,
    ← signRule_eq_toInt]
  exact ⟨decode_of_opcode_loadConst, decode_of_opcode_readMem, decode_of_opcode_writeMem,
    decode_of_opcode_sgn, fun h14 h11 h7 h4 => decode_of_opcode_not_mem (by simpa using ⟨h14, h11, h7, h4⟩)⟩

/-- Settles O13, by evaluating `decode` on the four words. -/
theorem writtenOutWordsDecode : Obligations.WrittenOutWordsDecode := by
  unfold Obligations.WrittenOutWordsDecode
  decide

/-! ### Packing what was decoded (40_codec.md R118, R119) -/

/-- The encoder's reduction modulo 2^15 undoes the sign rule. -/
theorem operandField_signRule (u : BitVec 15) : (Instr.loadConst (signRule u)).operandField = u := by
  apply BitVec.eq_of_toNat_eq
  have hfield := toNat_operandField_loadConst (signRule u)
  have hu := u.isLt
  by_cases h : u.toNat < 16384
  · rw [signRule_of_lt h] at hfield ⊢
    omega
  · rw [signRule_of_le (by omega)] at hfield ⊢
    omega

/-- The field that a decoded record is packed from is the one it was read from. -/
theorem operandField_of_decode {b : InstrBytes} {i : Instr} (h : decode b = .record i) :
    (i.mnemonic = .loadConst → i.operandField = b.immediateField) ∧
    (i.mnemonic ≠ .loadConst → i.operandField.toNat = b.addressField.toNat) := by
  obtain ⟨-, himmediate, haddress⟩ := decode_eq_record h
  refine ⟨fun hm => ?_, fun hm => ?_⟩
  · rw [himmediate hm, operandField_signRule]
  · exact Int.ofNat_inj.mp ((toNat_operandField_address hm).1.trans (haddress hm))

/-- Clearing the five reserved bits of format I leaves the value of the other three. -/
theorem toNat_xor_reserved (x : Byte) : (x ^^^ (x &&& 0xF8)).toNat = x.toNat % 8 := by
  revert x
  decide

theorem reservedBits_of_address {m : Mnemonic} (hm : m ≠ .loadConst) (b : InstrBytes) :
    b.reservedBits m = b.b2 := by
  cases m with
  | loadConst => exact absurd rfl hm
  | readMem | writeMem | sgn => rfl

/-- Packing a decoded record gives the word's bytes with the reserved bits cleared (decision D3). -/
theorem pack_of_decode {b : InstrBytes} {i : Instr} (h : decode b = .record i) :
    pack i.mnemonic i.operandField = { b with b2 := b.b2 ^^^ b.reservedBits i.mnemonic } := by
  obtain ⟨himmediate, haddress⟩ := operandField_of_decode h
  have hop : b.opcode = i.mnemonic.opcode :=
    (mnemonicOfOpcode_eq_some_iff _ _).mp (decode_eq_record h).1
  have hnibble : i.mnemonic.opcode.toNat = b.b0.toNat % 16 := by rw [← hop, b.toNat_opcode]
  have h0 := b.b0.isLt
  have h1 := b.b1.isLt
  by_cases hm : i.mnemonic = .loadConst
  · have hfield := congrArg BitVec.toNat (himmediate hm)
    rw [b.toNat_immediateField] at hfield
    apply InstrBytes_ext <;> apply BitVec.eq_of_toNat_eq <;> dsimp only
    · rw [toNat_b0_pack]
      omega
    · rw [toNat_b1_pack]
      omega
    · have hb2 : (b.b2 ^^^ b.reservedBits .loadConst).toNat = b.b2.toNat % 8 :=
        toNat_xor_reserved b.b2
      rw [hm, toNat_b2_pack_loadConst, hb2]
      omega
  · have hfield := haddress hm
    rw [b.toNat_addressField] at hfield
    apply InstrBytes_ext <;> dsimp only
    · apply BitVec.eq_of_toNat_eq
      rw [toNat_b0_pack]
      omega
    · apply BitVec.eq_of_toNat_eq
      rw [toNat_b1_pack]
      omega
    · rw [b2_pack_of_address _ hm, reservedBits_of_address hm, BitVec.xor_self]
      rfl

theorem decode_of_encode {i : Instr} {b : InstrBytes} (h : encode i = some b) :
    decode b = .record i := by
  obtain ⟨hwf, rfl⟩ := encode_eq_some h
  exact decode_pack_of_decodable (Instr.decodable_of_wellFormed hwf)

/-- Decoding does not see the reserved bits: the word without them packs the same record. -/
theorem decode_clear_reservedBits {b : InstrBytes} {m : Mnemonic}
    (hm : mnemonicOfOpcode b.opcode = some m) :
    decode { b with b2 := b.b2 ^^^ b.reservedBits m } = decode b := by
  obtain ⟨i, hd, rfl⟩ :=
    (exists_decode_eq_record_iff b m).mpr ((mnemonicOfOpcode_eq_some_iff _ _).mp hm)
  rw [← pack_of_decode hd, decode_pack_of_decodable (decodable_of_decode hd), hd]

/-- The packer leaves the reserved bits 0 (R90). -/
theorem reservedBits_pack (m : Mnemonic) (f : BitVec 15) : (pack m f).reservedBits m = 0 := by
  by_cases hm : m = .loadConst
  · subst hm
    have hlow : ∀ x : BitVec 3, x.setWidth 8 &&& (0xF8 : Byte) = 0 := by decide
    exact hlow (f.extractLsb' 12 3)
  · rw [reservedBits_of_address hm, b2_pack_of_address m hm]

/-- Settles O9: two words that differ in reserved bits only are one word once these are cleared. -/
theorem reservedBitsDoNotInfluenceDecoding : Obligations.ReservedBitsDoNotInfluenceDecoding := by
  refine ⟨fun b c m hm h0 h1 h2 => ?_, fun i b h => ?_, by decide, by decide, by decide⟩
  · have hop : c.opcode = b.opcode := congrArg (BitVec.extractLsb' 0 4) h0
    calc decode c
        = decode { c with b2 := c.b2 ^^^ c.reservedBits m } :=
          (decode_clear_reservedBits (hop ▸ hm)).symm
      _ = decode { b with b2 := b.b2 ^^^ b.reservedBits m } :=
          congrArg decode (InstrBytes_ext h0 h1 h2)
      _ = decode b := decode_clear_reservedBits hm
  · obtain ⟨_, rfl⟩ := encode_eq_some h
    exact reservedBits_pack _ _

/-! ### Which decoded records are valid (40_codec.md R109, R117) -/

theorem wellFormed_iff_of_address {i : Instr} (hm : i.mnemonic ≠ .loadConst) :
    i.wellFormed = true ↔ i.operand < 2048 := by
  cases i with
  | loadConst v => exact absurd rfl hm
  | readMem addr | writeMem addr | sgn addr =>
    have hiff : addressInRange addr.toNat = true ↔ (addr.toNat : Int) < 2048 := by
      rw [addressInRange_iff]
      omega
    exact hiff

theorem wellFormed_of_decodable_loadConst {i : Instr} (hd : i.decodable = true)
    (hm : i.mnemonic = .loadConst) : i.wellFormed = true := by
  cases i with
  | loadConst v => exact hd
  | readMem _ | writeMem _ | sgn _ => cases hm

/-- `b1[7]` is bit 11 of a decoded address. -/
theorem operand_lt_iff_msb {b : InstrBytes} {i : Instr} (h : decode b = .record i)
    (hm : i.mnemonic ≠ .loadConst) : i.operand < 2048 ↔ b.b1.msb = false := by
  have hop : i.operand = b.addressField.toNat := (decode_eq_record h).2.2 hm
  have hfield := b.toNat_addressField
  have h0 := b.b0.isLt
  rw [hop, BitVec.msb_eq_decide, decide_eq_false_iff_not]
  omega

theorem wellFormed_iff_msb {b : InstrBytes} {i : Instr} (h : decode b = .record i)
    (hm : i.mnemonic ≠ .loadConst) : i.wellFormed = true ↔ b.b1.msb = false :=
  (wellFormed_iff_of_address hm).trans (operand_lt_iff_msb h hm)

/-- A decoded address has twelve bits. -/
theorem operand_bounds_of_address {b : InstrBytes} {i : Instr} (h : decode b = .record i)
    (hm : i.mnemonic ≠ .loadConst) : 0 ≤ i.operand ∧ i.operand ≤ 4095 := by
  have hop : i.operand = b.addressField.toNat := (decode_eq_record h).2.2 hm
  have hlt := b.addressField.isLt
  rw [hop]
  omega

/-- Settles O8: `b1[7]` is the address's top bit, and an address with it set lies outside every data
memory. -/
theorem decodedAddressIsValidExactlyBelow2048 : Obligations.DecodedAddressIsValidExactlyBelow2048 := by
  intro b i h hm
  obtain ⟨hlo, hhi⟩ := operand_bounds_of_address h hm
  refine ⟨hlo, hhi, wellFormed_iff_msb h hm, fun hmsb s => ?_⟩
  have hlarge : ¬ i.operand < 2048 := by
    rw [operand_lt_iff_msb h hm, hmsb]
    decide
  have hmem := s.config.memLen_le
  obtain ⟨addr, haddr, hx⟩ := exec_of_memLen_le (s := s) hm (by omega)
  exact ⟨_, hx, rfl, rfl, haddr⟩

/-! ### Canonical encodings (30_encoding.md R91) -/

theorem exists_decode_of_canonical {b : InstrBytes} (h : b.canonical = true) :
    ∃ i, decode b = .record i := by
  cases hd : decode b with
  | record i => exact ⟨i, rfl⟩
  | illegalOpcode op => simp [InstrBytes.canonical, (decode_eq_illegalOpcode hd).2] at h

/-- A word is canonical exactly when its record is valid and its reserved bits are 0. -/
theorem canonical_iff_of_decode {b : InstrBytes} {i : Instr} (h : decode b = .record i) :
    b.canonical = true ↔ i.wellFormed = true ∧ b.reservedBits i.mnemonic = 0 := by
  have hm := (decode_eq_record h).1
  by_cases hl : i.mnemonic = .loadConst
  · have hwf := wellFormed_of_decodable_loadConst (decodable_of_decode h) hl
    simp [InstrBytes.canonical, hm, hl, hwf]
  · rw [wellFormed_iff_msb h hl]
    cases hmn : i.mnemonic with
    | loadConst => exact absurd hmn hl
    | readMem | writeMem | sgn => simp [InstrBytes.canonical, hm, hmn, and_comm]

theorem encode_of_decode {b : InstrBytes} {i : Instr} (h : decode b = .record i)
    (hwf : i.wellFormed = true) :
    encode i = some { b with b2 := b.b2 ^^^ b.reservedBits i.mnemonic } := by
  rw [encode_of_wellFormed hwf, pack_of_decode h]

theorem encode_eq_none_iff (i : Instr) : encode i = none ↔ i.wellFormed = false := by
  simp [encode]

theorem canonical_of_encode {i : Instr} {b : InstrBytes} (h : encode i = some b) :
    b.canonical = true := by
  have hd := decode_of_encode h
  obtain ⟨hwf, rfl⟩ := encode_eq_some h
  exact (canonical_iff_of_decode hd).mpr ⟨hwf, reservedBits_pack _ _⟩

theorem encode_of_canonical {b : InstrBytes} {i : Instr} (hd : decode b = .record i)
    (h : b.canonical = true) : encode i = some b := by
  obtain ⟨hwf, hzero⟩ := (canonical_iff_of_decode hd).mp h
  rw [encode_of_decode hd hwf, hzero]
  exact congrArg some (InstrBytes_ext rfl rfl BitVec.xor_zero)

/-- Settles O2: encoding clears the reserved bits of a valid record's word, so it changes the word exactly
where one is set; an invalid record is a long address. -/
theorem encodeAfterDecodeIsIdentityExactlyOnCanonical :
    Obligations.EncodeAfterDecodeIsIdentityExactlyOnCanonical := by
  refine ⟨fun b => ⟨fun h => ?_, fun ⟨i, _, he⟩ => canonical_of_encode he⟩, fun b i hd hcanon => ?_⟩
  · obtain ⟨i, hd⟩ := exists_decode_of_canonical h
    exact ⟨i, hd, encode_of_canonical hd h⟩
  · cases hwf : i.wellFormed with
    | true =>
      refine .inr ⟨rfl, encode_of_decode hd hwf, fun hzero => ?_⟩
      cases hcanon.symm.trans ((canonical_iff_of_decode hd).mpr ⟨hwf, hzero⟩)
    | false =>
      have hm : i.mnemonic ≠ .loadConst := fun hm => by
        cases hwf.symm.trans (wellFormed_of_decodable_loadConst (decodable_of_decode hd) hm)
      have hmsb : b.b1.msb = true := by
        rw [← Bool.not_eq_false, ← wellFormed_iff_msb hd hm, hwf]
        decide
      exact .inl ⟨hm, hmsb, rfl, (encode_eq_none_iff i).mpr hwf⟩

/-- Settles O3: an encoding decodes to the record it is of, which is what makes the record unique. -/
theorem encodeProducesEachCanonicalEncodingOnce :
    Obligations.EncodeProducesEachCanonicalEncodingOnce := by
  refine ⟨fun i b he => ?_, fun b h => ?_⟩
  · have hd := decode_of_encode he
    have hcanon := canonical_of_encode he
    obtain ⟨hwf, hzero⟩ := (canonical_iff_of_decode hd).mp hcanon
    refine ⟨(mnemonicOfOpcode_eq_some_iff _ _).mp (decode_eq_record hd).1, fun hm => ?_, fun hm => ?_,
      hcanon⟩
    · rw [hm] at hzero
      exact hzero
    · rw [reservedBits_of_address hm] at hzero
      exact ⟨hzero, (wellFormed_iff_msb hd hm).mp hwf⟩
  · obtain ⟨i, hd⟩ := exists_decode_of_canonical h
    refine ⟨i, encode_of_canonical hd h, fun j hj => ?_⟩
    exact Decoded.record.inj ((decode_of_encode hj).symm.trans hd)

theorem Mnemonic.opcode_inj {m n : Mnemonic} (h : m.opcode = n.opcode) : m = n := by
  have hmap := congrArg mnemonicOfOpcode h
  simpa using hmap

/-- Settles O4: equal bytes decode to one record, and the bytes are the opcode and the field packed. -/
theorem encodeTellsValidRecordsApart : Obligations.EncodeTellsValidRecordsApart := by
  intro i j bi bj hi hj hne
  have hbytes : bi ≠ bj := by
    rintro rfl
    exact hne (Decoded.record.inj ((decode_of_encode hi).symm.trans (decode_of_encode hj)))
  obtain ⟨_, rfl⟩ := encode_eq_some hi
  obtain ⟨_, rfl⟩ := encode_eq_some hj
  refine ⟨hbytes, fun hm hop => ?_, fun hm hfield => ?_⟩
  · rw [opcode_pack, opcode_pack] at hop
    exact hm (Mnemonic.opcode_inj hop)
  · exact hbytes (by rw [hm, hfield])

/-! ### Records from integers (40_codec.md R109) -/

theorem toNat_ofInt_of_addressInRange {v : Int} (h : addressInRange v = true) :
    ((BitVec.ofInt 12 v).toNat : Int) = v := by
  obtain ⟨hlo, hhi⟩ := (addressInRange_iff v).mp h
  rw [BitVec.toNat_ofInt]
  omega

theorem ofRecord_of_recordInRange {m : Mnemonic} {v : Int} (h : recordInRange m v = true) :
    ∃ i, Instr.ofRecord m v = some i ∧ i.mnemonic = m ∧ i.operand = v := by
  simp only [Instr.ofRecord, h, if_true]
  cases m with
  | loadConst => exact ⟨_, rfl, rfl, rfl⟩
  | readMem | writeMem | sgn => exact ⟨_, rfl, rfl, toNat_ofInt_of_addressInRange h⟩

/-- Settles O5: the twelve bits of a record hold every operand in range, and both checks are the one on
mnemonic and operand. -/
theorem recordsAndEncodingsExistExactlyInRange : Obligations.RecordsAndEncodingsExistExactlyInRange := by
  refine ⟨fun m v h => ?_, fun m v h => by simp [Instr.ofRecord, h], encode_eq_none_iff⟩
  obtain ⟨i, hi, rfl, rfl⟩ := ofRecord_of_recordInRange h
  exact ⟨i, hi, rfl, rfl, h⟩

end Sys2Proof

/-! SUPPORT. The binary of a list of records (30_encoding.md section 5) and the codec's ports (40_codec.md
section 5). -/

namespace Sys2Proof

/-! ### The binary of a list of records -/

theorem encodeProgram_cons_eq_some_iff {i : Instr} {is : List Instr} {bytes : List Byte} :
    encodeProgram (i :: is) = some bytes ↔
      ∃ b rest, encode i = some b ∧ encodeProgram is = some rest ∧
        bytes = b.b0 :: b.b1 :: b.b2 :: rest := by
  cases hi : encode i <;> cases his : encodeProgram is <;> simp [encodeProgram, hi, his, eq_comm]

/-- A list has a binary exactly when each of its records is valid. -/
theorem exists_encodeProgram_iff (is : List Instr) :
    (∃ bytes, encodeProgram is = some bytes) ↔ ∀ i ∈ is, i.wellFormed = true := by
  induction is with
  | nil => simp [encodeProgram]
  | cons i is ih =>
    rw [List.forall_mem_cons, ← ih]
    constructor
    · rintro ⟨_, h⟩
      obtain ⟨b, rest, hb, hrest, -⟩ := encodeProgram_cons_eq_some_iff.mp h
      exact ⟨(encode_eq_some hb).1, rest, hrest⟩
    · rintro ⟨hwf, rest, hrest⟩
      exact ⟨_, encodeProgram_cons_eq_some_iff.mpr ⟨_, rest, encode_of_wellFormed hwf, hrest, rfl⟩⟩

theorem length_encodeProgram {is : List Instr} {bytes : List Byte}
    (h : encodeProgram is = some bytes) : bytes.length = 3 * is.length := by
  induction is generalizing bytes with
  | nil => cases h; rfl
  | cons i is ih =>
    obtain ⟨b, rest, -, hrest, rfl⟩ := encodeProgram_cons_eq_some_iff.mp h
    simp only [List.length_cons, ih hrest]
    omega

end Sys2Proof

namespace Sys2Proof.Machine

/-! ### The machine that holds the binary -/

/-- With three bytes in front of the binary, instruction 0 is made of these and the others move up one. -/
theorem RunConfig.fetch_of_prog_cons {c : RunConfig} {b : InstrBytes} {rest : List Byte}
    (h : c.prog = b.b0 :: b.b1 :: b.b2 :: rest) :
    c.fetch 0 = b ∧ ∀ k, c.fetch (k + 1) = ({ c with prog := rest } : RunConfig).fetch k := by
  simp [RunConfig.fetch, RunConfig.byteAt, h, Nat.mul_add]

/-- A machine that holds the binary fetches the k-th record's encoding at index k. -/
theorem decode_fetch_encodeProgram {is : List Instr} {c : RunConfig}
    (h : encodeProgram is = some c.prog) {k : Nat} {i : Instr} (hk : is[k]? = some i) :
    decode (c.fetch k) = .record i := by
  induction is generalizing c k with
  | nil => simp at hk
  | cons j js ih =>
    obtain ⟨b, rest, hb, hrest, hprog⟩ := encodeProgram_cons_eq_some_iff.mp h
    obtain ⟨hfirst, hnext⟩ := RunConfig.fetch_of_prog_cons hprog
    cases k with
    | zero =>
      obtain rfl : j = i := by simpa using hk
      rw [hfirst, decode_of_encode hb]
    | succ k =>
      rw [hnext]
      exact ih hrest (by simpa using hk)

/-- Settles O16, by induction over the records: three bytes each, each fetched where it stands. -/
theorem encodedProgramDecodesRecordByRecord : Obligations.EncodedProgramDecodesRecordByRecord := by
  refine ⟨fun is hwf => ?_, fun is ⟨i, hi, hinvalid⟩ => ?_⟩
  · obtain ⟨bytes, hbytes⟩ := (exists_encodeProgram_iff is).mpr hwf
    have hlen := length_encodeProgram hbytes
    refine ⟨bytes, hbytes, hlen, ?_⟩
    rintro c rfl
    have hbounds := c.numInstrs_bounds
    exact ⟨by omega, fun k i hk => decode_fetch_encodeProgram hbytes hk⟩
  · by_contra hsome
    have hwf := (exists_encodeProgram_iff is).mp (Option.ne_none_iff_exists'.mp hsome) i hi
    cases hinvalid.symm.trans hwf

/-! ### The packer and the unpacker (40_codec.md R121) -/

theorem and_addressMask_of_lt {f : BitVec 15} (h : f.toNat < 2048) : f &&& 0x7FF = f := by
  apply BitVec.eq_of_toNat_eq
  rw [BitVec.toNat_and]
  exact (Nat.and_two_pow_sub_one_eq_mod f.toNat 11).trans (Nat.mod_eq_of_lt h)

/-- On a valid record the packer's mask drops nothing. -/
theorem packerPort_of_wellFormed {i : Instr} (h : i.wellFormed = true) :
    packerPort i.mnemonic i.operandField = (pack i.mnemonic i.operandField).word := by
  have hmask : i.mnemonic ≠ .loadConst → i.operandField &&& 0x7FF = i.operandField := fun hm => by
    have hop := (toNat_operandField_address hm).1
    have hlt := (wellFormed_iff_of_address hm).mp h
    exact and_addressMask_of_lt (by omega)
  cases hm : i.mnemonic with
  | loadConst => rfl
  | readMem | writeMem | sgn => rw [packerPort, hmask (by simp [hm])]

theorem decoderPort_of_record {w : InstrWord} {i : Instr} (h : decode (.ofWord w) = .record i) :
    decoderPort w =
      { decValid := true, decMnemonic := some i.mnemonic, decOperand := some i.operand,
        decIllegal := false } := by
  simp only [decoderPort, h]

theorem decoderPort_of_illegalOpcode {w : InstrWord} {op : BitVec 4}
    (h : decode (.ofWord w) = .illegalOpcode op) :
    decoderPort w =
      { decValid := false, decMnemonic := none, decOperand := none, decIllegal := true } := by
  simp only [decoderPort, h]

/-- The unpacker's valid bit is that the opcode selects a mnemonic. -/
theorem decValid_iff (w : InstrWord) :
    (decoderPort w).decValid = true ↔ mnemonicOfOpcode (InstrBytes.ofWord w).opcode ≠ none := by
  cases hd : decode (.ofWord w) with
  | record i => simp [decoderPort_of_record hd, (decode_eq_record hd).1]
  | illegalOpcode op => simp [decoderPort_of_illegalOpcode hd, (decode_eq_illegalOpcode hd).2]

theorem decIllegal_eq_not_decValid (w : InstrWord) :
    (decoderPort w).decIllegal = !(decoderPort w).decValid := by
  cases hd : decode (.ofWord w) with
  | record i => rw [decoderPort_of_record hd]; rfl
  | illegalOpcode op => rw [decoderPort_of_illegalOpcode hd]; rfl

theorem operand_bounds_of_loadConst {b : InstrBytes} {i : Instr} (h : decode b = .record i)
    (hm : i.mnemonic = .loadConst) : -16384 ≤ i.operand ∧ i.operand ≤ 16383 := by
  rw [(decode_eq_record h).2.1 hm]
  exact signRule_bounds b.immediateField

/-- Settles O17: the packer packs as `encode`, the unpacker shows what `decode` answers. -/
theorem codecPortsAgreeWithTheCodec : Obligations.CodecPortsAgreeWithTheCodec := by
  refine ⟨fun i b he => ?_, fun w => ⟨?_, decIllegal_eq_not_decValid w⟩, fun w i hd => ?_,
    fun w op hd => decoderPort_of_illegalOpcode hd⟩
  · have hd := decode_of_encode he
    rw [← b.ofWord_word] at hd
    obtain ⟨hwf, hb⟩ := encode_eq_some he
    exact ⟨hb ▸ packerPort_of_wellFormed hwf, decoderPort_of_record hd⟩
  · rw [decValid_iff, ne_eq, mnemonicOfOpcode_eq_none_iff, not_not, InstrBytes.opcode_ofWord]
  · exact ⟨decoderPort_of_record hd, operand_bounds_of_loadConst hd, operand_bounds_of_address hd⟩

end Sys2Proof.Machine

/-! SUPPORT. Whole runs (41_fetch_decode_execute.md section 3, 70_reset_and_hazards.md section 2): how many
instructions a state can still run, that the loop ends after as many passes and one, whether it ends in a
fault, and that a run does not see the configuration but for what it fetches. -/

namespace Sys2Proof.Machine

/-! ### The end of the loop (R136) -/

/-- The instructions that the two termination tests still let through. -/
def State.stepsLeft (s : State) : Nat :=
  min (s.config.numInstrs - s.pc) (s.config.stepLimit - s.stepCount)

theorem State.stepsLeft_of_atEnd {s : State} (h : s.config.numInstrs ≤ s.pc) : s.stepsLeft = 0 := by
  unfold State.stepsLeft
  omega

theorem State.stepsLeft_of_budgetSpent {s : State} (h : s.config.stepLimit ≤ s.stepCount) :
    s.stepsLeft = 0 := by
  unfold State.stepsLeft
  omega

theorem State.stepsLeft_lt_passBound (s : State) : s.stepsLeft < s.config.passBound := by
  unfold State.stepsLeft RunConfig.passBound
  omega

/-- An instruction that retires uses one of them up. -/
theorem Effect.stepsLeft_retire {s u : State} {i : Instr} (h : Effect s i u)
    (hpc : s.pc < s.config.numInstrs) (hstep : s.stepCount < s.config.stepLimit) :
    s.stepsLeft = (u.retire i).stepsLeft + 1 := by
  simp only [State.stepsLeft, State.retire_config, State.retire_pc, State.retire_stepCount, h.config_eq,
    h.pc_eq, h.stepCount_eq]
  omega

/-- A pass over a running state ends the run and counts nothing, or runs one of the instructions left. -/
theorem Stepped.ends_or_retires {s t : State} (h : Stepped s t) (hrun : s.status = .running) :
    (t.status ≠ .running ∧ t.stepCount = s.stepCount) ∨
    (t.status = .running ∧ t.stepCount = s.stepCount + 1 ∧ s.stepsLeft = t.stepsLeft + 1) := by
  cases h with
  | ended h => exact absurd hrun h
  | completed | spent | illegal | raised => exact .inl ⟨by simp, rfl⟩
  | retired _ hpc hstep i _ u hu =>
    exact .inr ⟨hu.status_eq.trans hrun, congrArg (· + 1) hu.stepCount_eq,
      hu.stepsLeft_retire hpc hstep⟩

/-- One pass more than there are instructions left, and the run has ended. -/
theorem State.loop_ends {k : Nat} {s : State} (hk : s.stepsLeft < k) :
    ∃ t, s.loop k = .next t ∧ t.status ≠ .running ∧ t.stepCount ≤ s.stepCount + s.stepsLeft := by
  induction k generalizing s with
  | zero => omega
  | succ k ih =>
    by_cases hrun : s.status = .running
    · obtain ⟨u, hu, hs⟩ := step_spec s
      rw [State.loop_succ_of_running k hrun hu]
      rcases hs.ends_or_retires hrun with ⟨hend, hcount⟩ | ⟨_, hcount, hleft⟩
      · exact ⟨u, State.loop_of_not_running hend k, hend, by omega⟩
      · obtain ⟨t, ht, hend, hle⟩ := ih (s := u) (by omega)
        exact ⟨t, ht, hend, by omega⟩
    · exact ⟨s, State.loop_of_not_running hrun _, hrun, by omega⟩

/-- More passes than it takes to end change nothing. -/
theorem State.loop_of_le {j k : Nat} {s t : State} (h : s.loop j = .next t) (ht : t.status ≠ .running)
    (hjk : j ≤ k) : s.loop k = .next t := by
  induction j generalizing s k with
  | zero =>
    cases h
    exact State.loop_of_not_running ht k
  | succ j ih =>
    by_cases hrun : s.status = .running
    · obtain ⟨u, hu, _⟩ := step_spec s
      obtain ⟨k, rfl⟩ := Nat.exists_eq_add_of_le' (Nat.le_of_add_left_le hjk)
      rw [State.loop_succ_of_running _ hrun hu] at h ⊢
      exact ih h (by omega)
    · rw [State.loop_of_not_running hrun] at h ⊢
      exact h

/-- The whole run, from reset: an end within its bound. -/
theorem RunConfig.run_ends (c : RunConfig) :
    ∃ t, (State.resetWith c).loop c.passBound = .next t ∧ t.status ≠ .running ∧ t.config = c ∧
      t.stepCount ≤ min c.numInstrs c.stepLimit := by
  obtain ⟨t, ht, hend, hle⟩ := State.loop_ends (State.resetWith c).stepsLeft_lt_passBound
  refine ⟨t, ht, hend, State.loop_config_eq ht, hle.trans ?_⟩
  simp [State.stepsLeft]

/-- Starting a run on arguments in their ranges is the reset with these arguments as configuration. -/
theorem State.start_of_inRange (binary : List Byte) {memoryLength stepLimit : Int}
    (hmem : 0 ≤ memoryLength) (hmem' : memoryLength ≤ 2048) (hlimit : 0 ≤ stepLimit) :
    ∃ c : RunConfig, State.start binary memoryLength stepLimit = .next (State.resetWith c) ∧
      c.prog = binary ∧ (c.memLen.val : Int) = memoryLength ∧ (c.stepLimit : Int) = stepLimit := by
  have hrange : 0 ≤ memoryLength ∧ memoryLength ≤ Config.maxMemLen := ⟨hmem, hmem'⟩
  refine ⟨_, by rw [State.start, dif_pos hrange, if_pos hlimit], rfl, ?_, ?_⟩
  · exact Int.toNat_of_nonneg hmem
  · exact Int.toNat_of_nonneg hlimit

/-- Settles O40: no state has more instructions left than the bound allows, and a run is the loop from
reset. -/
theorem everyRunEndsWithinItsBound : Obligations.EveryRunEndsWithinItsBound := by
  refine ⟨fun s => ?_, fun binary memoryLength stepLimit hmem hmem' hlimit => ?_⟩
  · obtain ⟨t, ht, hend, hle⟩ := State.loop_ends s.stepsLeft_lt_passBound
    have hleft := s.stepsLeft_lt_passBound
    rw [RunConfig.passBound] at hleft
    exact ⟨t, ht, hend, by omega, fun k hk => State.loop_of_le ht hend hk⟩
  · obtain ⟨c, hc, hprog, -, -⟩ := State.start_of_inRange binary hmem hmem' hlimit
    obtain ⟨t, ht, hend, rfl, hle⟩ := c.run_ends
    exact ⟨t, by rw [run, hc]; exact ht, hend, hprog, hle⟩

/-! ### Fault-free runs (R203) -/

theorem RunConfig.decodings_zero (c : RunConfig) (k : Nat) : c.decodings k 0 = [] := rfl

theorem RunConfig.decodings_succ (c : RunConfig) (k n : Nat) :
    c.decodings k (n + 1) = decode (c.fetch k) :: c.decodings (k + 1) n := by
  simp only [RunConfig.decodings, List.range'_succ, List.map_cons]

/-- The check passes an instruction that has its effect, and goes on with the depth it leaves. -/
theorem Effect.faultFree_cons {s u : State} {i : Instr} (h : Effect s i u) (rest : List Decoded) :
    faultFree s.config.memLen.val s.depth (.record i :: rest) =
      faultFree s.config.memLen.val u.depth rest := by
  cases h with
  | loadConst v => rfl
  | readMem addr h | sgn addr h => simp [faultFree, h, State.depth]
  | writeMem addr h v stack hs => simp [faultFree, h, State.depth, hs]

/-- The check stops at an instruction that faults. -/
theorem Raises.faultFree_cons {s : State} {i : Instr} {r : Raised} (h : Raises s i r)
    (rest : List Decoded) : faultFree s.config.memLen.val s.depth (.record i :: rest) = false := by
  cases h with
  | readMem addr h | sgn addr h => simp [faultFree, Nat.not_lt.mpr h]
  | writeMem addr h => cases hs : s.depth <;> simp [faultFree, Nat.not_lt.mpr h]
  | underflow addr h hs => simp [faultFree, State.depth, hs]

/-- The check of R203 on the instructions a state can still run. -/
def State.passesCheck (s : State) : Bool :=
  faultFree s.config.memLen.val s.depth (s.config.decodings s.pc s.stepsLeft)

theorem State.passesCheck_of_stepsLeft_eq_zero {s : State} (h : s.stepsLeft = 0) :
    s.passesCheck = true := by
  simp [State.passesCheck, h, RunConfig.decodings_zero, faultFree]

/-- Within the guards of a step the check begins with the decoding of the fetched instruction. -/
theorem State.passesCheck_of_ready {s : State} (hpc : s.pc < s.config.numInstrs)
    (hstep : s.stepCount < s.config.stepLimit) :
    s.passesCheck = faultFree s.config.memLen.val s.depth
      (decode s.fetch :: s.config.decodings (s.pc + 1) (s.stepsLeft - 1)) := by
  obtain ⟨n, hn⟩ : ∃ n, s.stepsLeft = n + 1 :=
    Nat.exists_eq_succ_of_ne_zero (by unfold State.stepsLeft; omega)
  rw [State.passesCheck, hn, RunConfig.decodings_succ, State.fetch, Nat.add_sub_cancel]

theorem Effect.passesCheck_retire {s u : State} {i : Instr} (h : Effect s i u)
    (hpc : s.pc < s.config.numInstrs) (hstep : s.stepCount < s.config.stepLimit)
    (hd : decode s.fetch = .record i) : (u.retire i).passesCheck = s.passesCheck := by
  rw [State.passesCheck_of_ready hpc hstep, hd, h.faultFree_cons, h.stepsLeft_retire hpc hstep,
    Nat.add_sub_cancel, State.passesCheck, State.retire_config, h.config_eq, State.retire_pc, h.pc_eq]
  rfl

/-- A pass that ends the run ends it as the check says, and any other hands the check on. -/
theorem Stepped.passesCheck {s t : State} (h : Stepped s t) (hrun : s.status = .running) :
    (t.status ≠ .running ∧ (t.Safe ↔ s.passesCheck = true)) ∨
    (t.status = .running ∧ t.passesCheck = s.passesCheck) := by
  cases h with
  | ended h => exact absurd hrun h
  | completed _ hpc =>
    have hcheck := State.passesCheck_of_stepsLeft_eq_zero (State.stepsLeft_of_atEnd hpc)
    exact .inl ⟨by simp, by simp [State.Safe, hcheck]⟩
  | spent _ _ hstep =>
    have hcheck := State.passesCheck_of_stepsLeft_eq_zero (State.stepsLeft_of_budgetSpent hstep)
    exact .inl ⟨by simp, by simp [State.Safe, hcheck]⟩
  | illegal _ hpc hstep op hd =>
    have hcheck := State.passesCheck_of_ready hpc hstep
    rw [hd, faultFree] at hcheck
    exact .inl ⟨by simp, by simp [State.Safe, hcheck]⟩
  | raised _ hpc hstep i hd r hr =>
    have hcheck := State.passesCheck_of_ready hpc hstep
    rw [hd, hr.faultFree_cons] at hcheck
    exact .inl ⟨by simp, by simp [State.Safe, hcheck]⟩
  | retired _ hpc hstep i hd u hu =>
    exact .inr ⟨hu.status_eq.trans hrun, hu.passesCheck_retire hpc hstep hd⟩

/-- From a running state the loop ends without a fault exactly when the check passes. -/
theorem State.loop_safe_iff {k : Nat} {s t : State} (hrun : s.status = .running)
    (hk : s.stepsLeft < k) (h : s.loop k = .next t) : t.Safe ↔ s.passesCheck = true := by
  induction k generalizing s with
  | zero => omega
  | succ k ih =>
    obtain ⟨u, hu, hs⟩ := step_spec s
    rw [State.loop_succ_of_running k hrun hu] at h
    rcases hs.passesCheck hrun with ⟨hend, hsafe⟩ | ⟨hrun', hcheck⟩
    · rw [State.loop_of_not_running hend] at h
      cases h
      exact hsafe
    · have hleft : u.stepsLeft < k := by
        rcases hs.ends_or_retires hrun with ⟨hend, _⟩ | ⟨_, _, hleft⟩
        · exact absurd hrun' hend
        · omega
      rw [← hcheck]
      exact ih hrun' hleft h

/-- Settles O41: the check of a run is the one of its first state. -/
theorem runIsFaultFreeExactlyWhenTheCheckPasses : Obligations.RunIsFaultFreeExactlyWhenTheCheckPasses := by
  intro c
  obtain ⟨t, ht, -⟩ := c.run_ends
  exact ⟨t, ht, State.loop_safe_iff rfl (State.resetWith c).stepsLeft_lt_passBound ht⟩

/-- Settles O42: the final state is sound, so its status says how far the counters came. -/
theorem faultFreeRunEndsCompletedOrAtTheLimit : Obligations.FaultFreeRunEndsCompletedOrAtTheLimit := by
  intro c t h hsafe
  obtain ⟨u, hu, hend, rfl, -⟩ := c.run_ends
  cases h.symm.trans hu
  have hsound : t.Sound := State.loop_invariant (fun _ _ => step_sound) (State.resetWith_sound _) h
  have hpc := hsound.counters.pc_eq_step
  have hpcle := hsound.counters.pc_le
  have hstepLe := hsound.counters.step_le
  have hlen := hsound.trace.length_eq
  cases hstatus : t.status with
  | running => exact absurd hstatus hend
  | fault => exact absurd hstatus hsafe
  | completed =>
    have hatEnd := hsound.status.completed_at_end hstatus
    exact ⟨fun _ => ⟨rfl, by omega⟩, fun _ => by omega, by omega, by omega⟩
  | stepLimit =>
    obtain ⟨hspent, hbefore⟩ := hsound.status.step_limit_spent hstatus
    exact ⟨fun _ => by omega, fun _ => ⟨rfl, by omega⟩, by omega, by omega⟩

/-! ### Runs of configurations that agree up to the limit -/

/-- `d` allows the same steps as `c` and gives the same bytes to each of them. -/
structure RunConfig.AgreesToLimit (c d : RunConfig) : Prop where
  memLen_eq : d.memLen = c.memLen
  stepLimit_eq : d.stepLimit = c.stepLimit
  ends_alike : ∀ k, k ≤ c.stepLimit → (k < d.numInstrs ↔ k < c.numInstrs)
  fetch_eq : ∀ k, k < c.stepLimit → d.fetch k = c.fetch k

theorem RunConfig.AgreesToLimit.passBound_eq {c d : RunConfig} (h : c.AgreesToLimit d) :
    d.passBound = c.passBound := by
  have hlimit := h.stepLimit_eq
  have hc := h.ends_alike c.numInstrs
  have hd := h.ends_alike d.numInstrs
  unfold RunConfig.passBound
  omega

/-- An effect depends on `MEM_LEN` and on nothing else of the configuration. -/
theorem Effect.with_config {s u : State} {i : Instr} (h : Effect s i u) {d : RunConfig}
    (hd : d.memLen = s.config.memLen) :
    Effect { s with config := d } i { u with config := d } := by
  have hlt : ∀ n, n < s.config.memLen.val → n < d.memLen.val := fun n hn => hd ▸ hn
  cases h with
  | loadConst v => exact .loadConst v
  | readMem addr h => exact .readMem addr (hlt _ h)
  | writeMem addr h v rest hs =>
    exact .writeMem (s := { s with config := d }) addr (hlt _ h) v rest hs
  | sgn addr h => exact .sgn addr (hlt _ h)

theorem Raises.with_config {s : State} {i : Instr} {r : Raised} (h : Raises s i r) {d : RunConfig}
    (hd : d.memLen = s.config.memLen) : Raises { s with config := d } i r := by
  have hle : ∀ n, s.config.memLen.val ≤ n → d.memLen.val ≤ n := fun n hn => hd ▸ hn
  cases h with
  | readMem addr h => exact .readMem addr (hle _ h)
  | writeMem addr h => exact .writeMem addr (hle _ h)
  | underflow addr h hs => exact .underflow addr (hd ▸ h) hs
  | sgn addr h => exact .sgn addr (hle _ h)

/-- A fault records the fetched word and nothing else of the configuration. -/
theorem State.raise_with_config {s : State} {d : RunConfig} (r : Raised)
    (h : ({ s with config := d } : State).fetch = s.fetch) :
    ({ s with config := d } : State).raise r = { s.raise r with config := d } := by
  simp only [State.raise, State.faultRecord, h]

/-- A pass up to the limit does the same under a configuration that agrees. -/
theorem Stepped.with_config {s t : State} (h : Stepped s t) (hs : s.CountersSound) {d : RunConfig}
    (hd : s.config.AgreesToLimit d) : Stepped { s with config := d } { t with config := d } := by
  have hpcStep := hs.pc_eq_step
  have hends := hd.ends_alike s.pc (hpcStep ▸ hs.step_le)
  have hfetch : s.stepCount < s.config.stepLimit →
      ({ s with config := d } : State).fetch = s.fetch := fun hlt => hd.fetch_eq s.pc (hpcStep ▸ hlt)
  have hbudget : s.stepCount < s.config.stepLimit → s.stepCount < d.stepLimit := fun hlt =>
    hd.stepLimit_eq ▸ hlt
  cases h with
  | ended h => exact .ended h
  | completed h hpc =>
    exact .completed (s := { s with config := d }) h (Nat.not_lt.mp (mt hends.mp (Nat.not_lt.mpr hpc)))
  | spent h hpc hstep =>
    exact .spent (s := { s with config := d }) h (hends.mpr hpc) (hd.stepLimit_eq ▸ hstep)
  | illegal h hpc hstep op hdec =>
    rw [← State.raise_with_config _ (hfetch hstep)]
    exact .illegal (s := { s with config := d }) h (hends.mpr hpc) (hbudget hstep) op
      ((hfetch hstep).symm ▸ hdec)
  | raised h hpc hstep i hdec r hr =>
    rw [← State.raise_with_config _ (hfetch hstep)]
    exact .raised (s := { s with config := d }) h (hends.mpr hpc) (hbudget hstep) i
      ((hfetch hstep).symm ▸ hdec) r (hr.with_config hd.memLen_eq)
  | retired h hpc hstep i hdec u hu =>
    exact .retired (s := { s with config := d }) h (hends.mpr hpc) (hbudget hstep) i
      ((hfetch hstep).symm ▸ hdec) _ (hu.with_config hd.memLen_eq)

/-- The loop from a sound state ends alike under a configuration that agrees. -/
theorem State.loop_with_config {k : Nat} {s t : State} (hs : s.Sound) {d : RunConfig}
    (hd : s.config.AgreesToLimit d) (h : s.loop k = .next t) :
    ({ s with config := d } : State).loop k = .next { t with config := d } := by
  induction k generalizing s with
  | zero =>
    cases h
    rfl
  | succ k ih =>
    by_cases hrun : s.status = .running
    · obtain ⟨u, hu, hstepped⟩ := step_spec s
      rw [State.loop_succ_of_running k hrun hu] at h
      rw [State.loop_succ_of_running (s := { s with config := d }) k hrun
        (hstepped.with_config hs.counters hd).step_eq]
      exact ih (step_sound hs hu) ((step_config_eq hu).symm ▸ hd) h
    · rw [State.loop_of_not_running hrun] at h
      cases h
      exact State.loop_of_not_running (s := { t with config := d }) hrun _

theorem RunConfig.AgreesToLimit.run_alike {c d : RunConfig} (h : c.AgreesToLimit d) :
    ∃ t, (State.resetWith c).loop c.passBound = .next t ∧
      (State.resetWith d).loop d.passBound = .next { t with config := d } := by
  obtain ⟨t, ht, -⟩ := c.run_ends
  refine ⟨t, ht, ?_⟩
  rw [h.passBound_eq]
  exact State.loop_with_config (State.resetWith_sound c) h ht

/-- Settles O43: both binaries are longer than the limit, so the tests agree up to it. -/
theorem instructionsBeyondTheLimitHaveNoEffect : Obligations.InstructionsBeyondTheLimitHaveNoEffect := by
  intro c d hmem hlimit hc hd hfetch
  have hagrees : c.AgreesToLimit d :=
    { memLen_eq := hmem
      stepLimit_eq := hlimit
      ends_alike := fun k hk => by omega
      fetch_eq := hfetch }
  exact hagrees.run_alike

/-- Zero bytes written out read as the padding does. -/
theorem RunConfig.byteAt_of_zeros_appended {c d : RunConfig} {n : Nat}
    (h : d.prog = c.prog ++ List.replicate n 0) (k : Nat) : d.byteAt k = c.byteAt k := by
  rw [RunConfig.byteAt, h, RunConfig.byteAt]
  by_cases hk : k < c.prog.length
  · exact List.getD_append _ _ _ _ hk
  · rw [List.getD_append_right _ _ _ _ (by omega), List.getD_eq_default c.prog _ (by omega),
      List.getD_eq_getElem?_getD, List.getElem?_getD_replicate_default_eq]

theorem RunConfig.fetch_of_zeros_appended {c d : RunConfig} {n : Nat}
    (h : d.prog = c.prog ++ List.replicate n 0) (i : Nat) : d.fetch i = c.fetch i := by
  simp only [RunConfig.fetch, RunConfig.byteAt_of_zeros_appended h]

/-- Settles O44: the padding completes the last record and begins no other. -/
theorem writtenOutPaddingChangesNothing : Obligations.WrittenOutPaddingChangesNothing := by
  intro c d hmem hlimit hprog
  have hnum : d.numInstrs = c.numInstrs := by
    simp only [RunConfig.numInstrs, hprog, List.length_append, List.length_replicate]
    omega
  have hfetch := RunConfig.fetch_of_zeros_appended hprog
  have hagrees : c.AgreesToLimit d :=
    { memLen_eq := hmem
      stepLimit_eq := hlimit
      ends_alike := fun k _ => by rw [hnum]
      fetch_eq := fun k _ => hfetch k }
  exact ⟨hnum, hfetch, hagrees.run_alike⟩

end Sys2Proof.Machine

/-! SUPPORT. Values in cells of a fixed width (10_state.md section 3), the host's side
(70_reset_and_hazards.md) and the ports (41_fetch_decode_execute.md section 6,
42_stack_memory_instructions.md section 9). -/

namespace Sys2Proof.Machine

/-! ### Two's-complement cells -/

theorem toInt_ofInt_of_valueInRange {w : Nat} (hw : 15 ≤ w) {v : Int} (hv : valueInRange v) :
    (BitVec.ofInt w v).toInt = v := by
  obtain ⟨hlo, hhi⟩ := hv
  have hpow : (2 : Int) ^ 14 ≤ 2 ^ (w - 1) := pow_le_pow_right₀ (by decide) (by omega)
  exact BitVec.toInt_ofInt_eq_self (by omega) (by omega) (by omega)

/-- Settles O45: a sound state holds only values in range, on the stack and in every cell. -/
theorem fifteenBitCellsLoseNothing : Obligations.FifteenBitCellsLoseNothing :=
  fun _ _ hs hw => ⟨fun v hv => toInt_ofInt_of_valueInRange hw (hs.stack_in_range v hv),
    fun a => toInt_ofInt_of_valueInRange hw (hs.memory.memRead_in_range a)⟩

/-- Settles O46: all bits 0 is the value 0, and the top bit is that the value is negative. -/
theorem signReadsTheTopBit : Obligations.SignReadsTheTopBit := by
  intro w x
  have hzero : x = 0 ↔ x.toInt = 0 := by
    rw [← BitVec.toInt_inj, BitVec.ofNat_eq_ofNat, BitVec.toInt_zero]
  have hneg : x.msb = true ↔ x.toInt < 0 := by rw [BitVec.msb_eq_toInt, decide_eq_true_iff]
  rw [signOf_eq_sign]
  by_cases h0 : x.toInt = 0
  · rw [if_pos (hzero.mpr h0), Int.sign_eq_zero_iff_zero.mpr h0]
  · rw [if_neg (mt hzero.mp h0)]
    by_cases hlt : x.toInt < 0
    · rw [if_pos (hneg.mpr hlt), Int.sign_eq_neg_one_of_neg hlt]
    · rw [if_neg (mt hneg.mp hlt), Int.sign_eq_one_of_pos (by omega)]

/-! ### What the host reads (R137, R206, R207) -/

theorem State.hostReadCell_of_running {s : State} (h : s.status = .running) (a : Nat) :
    s.hostReadCell a = .refused .hostMoveDuringRun := if_pos h

theorem State.hostReadCell_of_lt {s : State} (h : s.status ≠ .running) {a : Nat}
    (ha : a < s.config.memLen.val) : s.hostReadCell a = .next (s.memRead a) := by
  rw [State.hostReadCell, if_neg h, if_pos ha]

theorem State.hostReadCell_of_le {s : State} (h : s.status ≠ .running) {a : Nat}
    (ha : s.config.memLen.val ≤ a) : s.hostReadCell a = .fault (.noSuchCell a) := by
  rw [State.hostReadCell, if_neg h, if_neg (Nat.not_lt.mpr ha)]

/-- Settles O47: the result by its table, the view by what its answer means, the read port by its tests. -/
theorem hostReadsOnlyAfterTheRun : Obligations.HostReadsOnlyAfterTheRun := by
  intro s
  refine ⟨fun h => ⟨by rw [State.result, h], if_pos h, State.hostReadCell_of_running h⟩, ?_,
    fun h => by rw [State.result, h], fun h => ?view, fun h a => ?cells⟩
  · rintro (h | h) <;> rw [State.result, h]
  case view =>
    obtain ⟨_, hfault, _, _, hstack⟩ := ((s.hostView_eq_next_iff _).mp (if_neg h)).2
    refine ⟨_, if_neg h, rfl, rfl, s.dump_length, s.dump_getElem, fun hf => ?_, fun hf => ?_⟩
    · exact ⟨hfault.trans (if_pos hf), hstack.trans (if_pos hf)⟩
    · exact ⟨hfault.trans (if_neg hf), hstack.trans (if_neg hf)⟩
  case cells =>
    refine ⟨fun ha => ?_, fun ha => State.hostReadCell_of_le h (s.dump_length ▸ ha)⟩
    rw [s.dump_getElem a ha]
    exact State.hostReadCell_of_lt h (s.dump_length ▸ ha)

/-! ### Starting a run (R200, R205) -/

/-- Settles O48: the reset of good arguments, and one refusal for each bad one. -/
theorem startResetsEverythingOrRefuses : Obligations.StartResetsEverythingOrRefuses := by
  refine ⟨fun binary memoryLength stepLimit hmem hmem' hlimit => ?_,
    fun binary memoryLength stepLimit hmem => ?_,
    fun binary memoryLength stepLimit hmem hmem' hlimit => ?_, rfl, rfl⟩
  · obtain ⟨c, hc, hprog, hlen, hlim⟩ := State.start_of_inRange binary hmem hmem' hlimit
    exact ⟨_, hc, rfl, rfl, rfl, fun _ => rfl, rfl, rfl, rfl, rfl, hprog, hlen, hlim⟩
  · have hrange : ¬ (0 ≤ memoryLength ∧ memoryLength ≤ Config.maxMemLen) := by
      rintro ⟨hlo, hhi⟩
      have hhi' : memoryLength ≤ 2048 := hhi
      omega
    rw [State.start, dif_neg hrange]
  · have hrange : 0 ≤ memoryLength ∧ memoryLength ≤ Config.maxMemLen := ⟨hmem, hmem'⟩
    rw [State.start, dif_pos hrange, if_neg (Int.not_le.mpr hlimit)]

/-! ### The trace stream and the sequencer's outputs (R145) -/

theorem tracePulse_of_stepCount_eq {s t : State} (h : t.stepCount = s.stepCount) :
    tracePulse s t = none := if_neg (by omega)

theorem Effect.tracePulse_retire {s u : State} {i : Instr} (h : Effect s i u) :
    tracePulse s (u.retire i) = some i := by
  simp [tracePulse, h.stepCount_eq]

/-- Settles O49: only a retiring pass advances the step counter, and it appends the record it decoded. -/
theorem traceStreamPulsesOncePerCompletedStep : Obligations.TraceStreamPulsesOncePerCompletedStep := by
  intro s t h
  cases step_cases h with
  | ended | completed | spent | illegal | raised =>
    rw [tracePulse_of_stepCount_eq (by rfl)]
    exact ⟨fun i => by simp, fun _ => ⟨rfl, rfl⟩⟩
  | retired _ _ _ i hd u hu =>
    rw [hu.tracePulse_retire]
    refine ⟨fun j => ⟨fun hj => ?_, fun ⟨_, hdj, _⟩ => ?_⟩, fun hnone => by cases hnone⟩
    · cases hj
      exact ⟨congrArg (· + 1) hu.pc_eq, hd, congrArg (· ++ [i]) hu.trace_eq⟩
    · exact congrArg some (Decoded.record.inj (hd.symm.trans hdj))

theorem Status.code_inj {x y : Status} : x.code = y.code ↔ x = y := by
  cases x <;> cases y <;> decide

theorem FaultCause.code_inj {x y : FaultCause} : x.code = y.code ↔ x = y := by
  cases x <;> cases y <;> decide

theorem State.stackEmpty_iff (s : State) : s.stackEmpty = true ↔ s.stack = [] := by
  rw [State.stackEmpty, decide_eq_true_iff]
  exact List.length_eq_zero_iff

theorem RunConfig.imemValid_iff (c : RunConfig) (k : Nat) :
    (c.programStorePort k).imemValid = true ↔ k < c.prog.length := decide_eq_true_iff

/-- Settles O50: the codes tell statuses and causes apart, and the other outputs are the fields themselves. -/
theorem portsShowTheState : Obligations.PortsShowTheState := by
  intro s
  refine ⟨Status.code_inj (y := .running), Status.code_inj (y := .completed),
    Status.code_inj (y := .stepLimit), Status.code_inj (y := .fault),
    FaultCause.code_inj (y := .none), FaultCause.code_inj (y := .illegalOpcode),
    FaultCause.code_inj (y := .addressOutOfRange), FaultCause.code_inj (y := .stackUnderflow),
    rfl, rfl, rfl, rfl, rfl, rfl, rfl, fun k => ?_, s.stackEmpty_iff⟩
  refine ⟨s.config.imemValid_iff k, fun hk => s.config.byteAt_of_lt hk, fun hinvalid => ?_⟩
  have hpast : ¬ k < s.config.prog.length := by
    rw [← s.config.imemValid_iff, hinvalid]
    decide
  exact s.config.byteAt_of_length_le (Nat.not_lt.mp hpast)

/-! ### The stack and memory ports (R161) -/

theorem State.addrOutOfRange_of_lt {s : State} {addr : Address} (h : addr.toNat < s.config.memLen.val) :
    s.addrOutOfRange addr = false := by
  rw [← Bool.not_eq_true, s.addrOutOfRange_iff]
  omega

theorem State.portsOf_readMem {s : State} {addr : Address} (h : addr.toNat < s.config.memLen.val) :
    s.portsOf (.readMem addr) = { PortUse.idle with
      read := some ⟨addr, s.memRead addr.toNat⟩, push := some (s.memRead addr.toNat) } := by
  simp [State.portsOf, State.addrOutOfRange_of_lt h, State.readAndPush]

theorem State.portsOf_writeMem {s : State} {addr : Address} {v : Int} {rest : List Int}
    (h : addr.toNat < s.config.memLen.val) (hs : s.stack = v :: rest) :
    s.portsOf (.writeMem addr) =
      { PortUse.idle with pop := some v, write := some ⟨addr, v⟩ } := by
  simp [State.portsOf, State.addrOutOfRange_of_lt h, State.pop, hs]

theorem State.portsOf_sgn {s : State} {addr : Address} (h : addr.toNat < s.config.memLen.val) :
    s.portsOf (.sgn addr) = { PortUse.idle with
      read := some ⟨addr, s.memRead addr.toNat⟩,
      push := some (Int.sign (s.memRead addr.toNat)) } := by
  simp [State.portsOf, State.addrOutOfRange_of_lt h, State.readAndPush, signOf_eq_sign]

/-- A pass that lets the step through drives the ports of the decoded instruction. -/
theorem State.stepPorts_of_record {s : State} {i : Instr} (h : s.status = .running)
    (hpc : s.pc < s.config.numInstrs) (hstep : s.stepCount < s.config.stepLimit)
    (hd : decode s.fetch = .record i) : s.stepPorts = s.portsOf i := by
  simp only [State.stepPorts, State.pass_of_ready h hpc hstep, hd]

theorem State.stepPorts_of_illegalOpcode {s : State} {op : BitVec 4} (h : s.status = .running)
    (hpc : s.pc < s.config.numInstrs) (hstep : s.stepCount < s.config.stepLimit)
    (hd : decode s.fetch = .illegalOpcode op) : s.stepPorts = .idle := by
  simp only [State.stepPorts, State.pass_of_ready h hpc hstep, hd]

/-- A pass does to stack and memory what driving its ports does. -/
theorem Stepped.stack_mem_eq_drive {s t : State} (h : Stepped s t) :
    t.stack = (s.drive s.stepPorts).stack ∧ t.mem = (s.drive s.stepPorts).mem := by
  cases h with
  | ended h =>
    rw [State.stepPorts, State.pass_of_not_running h]
    exact ⟨rfl, rfl⟩
  | completed h hpc =>
    rw [State.stepPorts, State.pass_of_atEnd h hpc]
    exact ⟨rfl, rfl⟩
  | spent h hpc hstep =>
    rw [State.stepPorts, State.pass_of_budgetSpent h hpc hstep]
    exact ⟨rfl, rfl⟩
  | illegal h hpc hstep op hd =>
    rw [State.stepPorts_of_illegalOpcode h hpc hstep hd]
    exact ⟨rfl, rfl⟩
  | raised h hpc hstep i hd r hr =>
    rw [State.stepPorts_of_record h hpc hstep hd, hr.ports]
    exact ⟨rfl, rfl⟩
  | retired h hpc hstep i hd u hu =>
    rw [State.stepPorts_of_record h hpc hstep hd, hu.ports.1]
    exact ⟨rfl, rfl⟩

/-- Without a write the memory stays: neither the pop nor the push touches it. -/
theorem State.drive_mem_of_not_wrEn (s : State) {u : PortUse} (h : u.wrEn = false) :
    (s.drive u).mem = s.mem := by
  have hwrite : u.write = none := Option.not_isSome_iff_eq_none.mp (by simpa [PortUse.wrEn] using h)
  have hpop : (s.afterPop u.pop).mem = s.mem := by
    cases hp : u.pop with
    | none => simp [State.afterPop]
    | some v =>
      cases hs : s.pop with
      | none => simp [State.afterPop, hs]
      | some r =>
        obtain ⟨rest, -, hr⟩ := (State.pop_eq_some_iff s r.2 r.1).mp hs
        simp [State.afterPop, hs, hr]
  rw [State.drive, hwrite, ← hpop]
  cases u.push <;> rfl

/-- Settles O51: the ports of each effect by their equations, none for a raise, and that driving them is the
effect. -/
theorem portsCarryEveryEffectOnStackAndMemory : Obligations.PortsCarryEveryEffectOnStackAndMemory := by
  refine ⟨fun s i => ?_, fun s a v => ⟨s.writePort_disabled a v, s.writePort_enabled a v⟩,
    fun s u h => s.drive_mem_of_not_wrEn h, fun s t h => (step_cases h).stack_mem_eq_drive⟩
  rcases exec_cases i s with ⟨u, hu, hx⟩ | ⟨r, hr, hx⟩
  · refine .inr ⟨by rw [hu.ports.1, hx], ?_⟩
    cases hu with
    | loadConst v => exact ⟨rfl, .inl rfl, rfl⟩
    | readMem addr h =>
      rw [State.portsOf_readMem h]
      exact ⟨rfl, .inr rfl, h, rfl⟩
    | writeMem addr h v rest hs =>
      rw [State.portsOf_writeMem h hs]
      exact ⟨rfl, .inl rfl, h, v, by rw [hs, List.head?_cons], rfl⟩
    | sgn addr h =>
      rw [State.portsOf_sgn h]
      exact ⟨rfl, .inr rfl, h, rfl⟩
  · exact .inl ⟨hr.ports, r, hx⟩

end Sys2Proof.Machine
